-- ==== Sys2Proof/Word.lean ====
section
/-! DEFINITION. The word, index and bit-string types of the block (00_scope.md R12, R14, R16, R17). -/

namespace Sys2Proof

/-- A command word or a register read value: one 32-bit unit with no byte order (R14, R65). -/
abbrev Word := BitVec 32

/-- One byte of the packed stream, one output item, one information byte (R12). -/
abbrev Byte := BitVec 8

/-- A symbol ordinal 0..127 (R12). -/
abbrev Symbol := BitVec 7

/-- An index into the tree memory TR, 0..255 (R14). -/
abbrev NodeIndex := BitVec 8

/-- A logical bit-string: first element first in time and first in the packed stream (R17). -/
abbrev Bits := List Bool

end Sys2Proof
end

