-- ==== Sys2Proof/Syntax.lean ====
section
/-! DEFINITION. The sixteen commands of the block (30_encoding.md R91), one constructor per row of
spec/opcode_table.json. Each operand has exactly the width R92 gives it, so every term is a command
the block has; the must-be-zero bits of R93 live in the encoding, checked by `Sys2Proof.wellFormedWord`. -/

namespace Sys2Proof

/-- A command (R91). -/
inductive Instr where
  /-- NOP (R200). -/
  | nop
  /-- RST (R201). -/
  | rst
  /-- RD_REG r (R202). -/
  | rdReg (r : BitVec 2)
  /-- TR_LEAF idx, sym (R151). -/
  | trLeaf (idx : NodeIndex) (sym : Symbol)
  /-- TR_NODE idx, left, right (R152). -/
  | trNode (idx left right : NodeIndex)
  /-- SET_ROOT idx (R153). -/
  | setRoot (idx : NodeIndex)
  /-- CT_CLR sym (R154). -/
  | ctClr (sym : Symbol)
  /-- CT_NEW sym (R155). -/
  | ctNew (sym : Symbol)
  /-- CT_BIT v (R156). -/
  | ctBit (v : Bool)
  /-- PK_BEGIN (R165). -/
  | pkBegin
  /-- PK_SYM sym (R166). -/
  | pkSym (sym : Symbol)
  /-- PK_CHAR ch (R168). -/
  | pkChar (ch : Byte)
  /-- PK_END (R169). -/
  | pkEnd
  /-- DK_BEGIN raw (R185). -/
  | dkBegin (raw : Bool)
  /-- DK_BYTE byte (R186). -/
  | dkByte (byte : Byte)
  /-- DK_END (R189). -/
  | dkEnd
  deriving DecidableEq, Repr

end Sys2Proof
end

