-- ==== Sys2Proof/WellFormed.lean ====
section
/-! DEFINITION. When a word is one of the sixteen commands: the mask and match table of
30_encoding.md R93, written from that table and independently of the decoder. Every term of `Instr`
is well-formed by the widths of its operands; what can be ill-formed is a word. -/

namespace Sys2Proof

/-- One row of R93: the bits that are fixed, and the value they must have. -/
structure WordRow where
  mask  : Word
  fixed : Word
  deriving DecidableEq, Repr

/-- `w & mask = match` (R93). -/
def WordRow.accepts (r : WordRow) (w : Word) : Bool := w &&& r.mask == r.fixed

/-- The row of R93 for a command's mnemonic. -/
def Instr.row : Instr → WordRow
  | .nop          => ⟨0xFFFFFFFF#32, 0x00000000#32⟩
  | .rst          => ⟨0xFFFFFFFF#32, 0x10000000#32⟩
  | .rdReg _      => ⟨0xFFFFFFFC#32, 0x20000000#32⟩
  | .trLeaf _ _   => ⟨0xF00FFF80#32, 0x30000000#32⟩
  | .trNode _ _ _ => ⟨0xF00F0000#32, 0x40000000#32⟩
  | .setRoot _    => ⟨0xFFFFFF00#32, 0x50000000#32⟩
  | .ctClr _      => ⟨0xFFFFFF80#32, 0x60000000#32⟩
  | .ctNew _      => ⟨0xFFFFFF80#32, 0x70000000#32⟩
  | .ctBit _      => ⟨0xFFFFFFFE#32, 0x80000000#32⟩
  | .pkBegin      => ⟨0xFFFFFFFF#32, 0x90000000#32⟩
  | .pkSym _      => ⟨0xFFFFFF80#32, 0xA0000000#32⟩
  | .pkChar _     => ⟨0xFFFFFF00#32, 0xB0000000#32⟩
  | .pkEnd        => ⟨0xFFFFFFFF#32, 0xC0000000#32⟩
  | .dkBegin _    => ⟨0xFFFFFFFE#32, 0xD0000000#32⟩
  | .dkByte _     => ⟨0xFFFFFF00#32, 0xE0000000#32⟩
  | .dkEnd        => ⟨0xFFFFFFFF#32, 0xF0000000#32⟩

/-- All sixteen rows of R93, in the order of the table. -/
def wordRows : List WordRow :=
  [ Instr.row .nop, Instr.row .rst, Instr.row (.rdReg 0), Instr.row (.trLeaf 0 0),
    Instr.row (.trNode 0 0 0), Instr.row (.setRoot 0), Instr.row (.ctClr 0), Instr.row (.ctNew 0),
    Instr.row (.ctBit false), Instr.row .pkBegin, Instr.row (.pkSym 0), Instr.row (.pkChar 0),
    Instr.row .pkEnd, Instr.row (.dkBegin false), Instr.row (.dkByte 0), Instr.row .dkEnd ]

/-- The word matches some row of R93, so it is a command; otherwise it is ILLEGAL (R96). -/
def wellFormedWord (w : Word) : Bool := wordRows.any (·.accepts w)

end Sys2Proof
end

