-- ==== Sys2Proof/Decode.lean ====
section
/-! DEFINITION. The decoder, total on all 2^32 words (30_encoding.md R94), and the encoder beside it
(R91). A command word is one 32-bit unit and has no byte order (R65). -/

namespace Sys2Proof

/-- Field op, bits 31:28 (R91). -/
def fieldOp (w : Word) : BitVec 4 := w.extractLsb' 28 4

/-- Field a, bits 27:20 (R91). -/
def fieldA (w : Word) : Byte := w.extractLsb' 20 8

/-- Field z, bits 19:16, zero in every command (R91). -/
def fieldZ (w : Word) : BitVec 4 := w.extractLsb' 16 4

/-- Field b, bits 15:8 (R91). -/
def fieldB (w : Word) : Byte := w.extractLsb' 8 8

/-- Field c, bits 7:0 (R91). -/
def fieldC (w : Word) : Byte := w.extractLsb' 0 8

/-- `w[31:24]`, what E_SEQ and E_ILLEGAL record (60_exceptions.md R215). -/
def topByte (w : Word) : Byte := w.extractLsb' 24 8

/-- A symbol operand `c[6:0]`; none when `c[7]` is set (R91, R93). -/
def symbolOf (c : Byte) : Option Symbol :=
  if c.extractLsb' 7 1 = 0#1 then some (c.extractLsb' 0 7) else none

/-- A one-bit operand `c[0]`; none when a bit of `c[7:1]` is set (R91, R93). -/
def bitOf (c : Byte) : Option Bool :=
  if c.extractLsb' 1 7 = 0#7 then some (c.getLsbD 0) else none

/-- A register number `c[1:0]`; none when a bit of `c[7:2]` is set (R91, R93). -/
def regOf (c : Byte) : Option (BitVec 2) :=
  if c.extractLsb' 2 6 = 0#6 then some (c.extractLsb' 0 2) else none

/-- The command if the fields it leaves unused are zero (R93). -/
def whenZero (unused : Bool) (i : Option Instr) : Option Instr := if unused then i else none

/-- The command a word is, or none: ILLEGAL (R94, R96). -/
def decode (w : Word) : Option Instr :=
  let a := fieldA w
  let b := fieldB w
  let c := fieldC w
  whenZero (fieldZ w == 0#4) <|
    match fieldOp w with
    | 0x0#4 => whenZero (a == 0 && b == 0 && c == 0) (some .nop)
    | 0x1#4 => whenZero (a == 0 && b == 0 && c == 0) (some .rst)
    | 0x2#4 => whenZero (a == 0 && b == 0) ((regOf c).map .rdReg)
    | 0x3#4 => whenZero (b == 0) ((symbolOf c).map (.trLeaf a))
    | 0x4#4 => some (.trNode a b c)
    | 0x5#4 => whenZero (a == 0 && b == 0) (some (.setRoot c))
    | 0x6#4 => whenZero (a == 0 && b == 0) ((symbolOf c).map .ctClr)
    | 0x7#4 => whenZero (a == 0 && b == 0) ((symbolOf c).map .ctNew)
    | 0x8#4 => whenZero (a == 0 && b == 0) ((bitOf c).map .ctBit)
    | 0x9#4 => whenZero (a == 0 && b == 0 && c == 0) (some .pkBegin)
    | 0xA#4 => whenZero (a == 0 && b == 0) ((symbolOf c).map .pkSym)
    | 0xB#4 => whenZero (a == 0 && b == 0) (some (.pkChar c))
    | 0xC#4 => whenZero (a == 0 && b == 0 && c == 0) (some .pkEnd)
    | 0xD#4 => whenZero (a == 0 && b == 0) ((bitOf c).map .dkBegin)
    | 0xE#4 => whenZero (a == 0 && b == 0) (some (.dkByte c))
    | 0xF#4 => whenZero (a == 0 && b == 0 && c == 0) (some .dkEnd)
    | _     => none

/-- The one word format of R91, with the z field zero. -/
def formatWord (op : BitVec 4) (a b c : Byte) : Word := op ++ a ++ 0#4 ++ b ++ c

/-- A symbol operand in field c: bit 7 zero (R91). -/
def symbolField (sym : Symbol) : Byte := 0#1 ++ sym

/-- A one-bit operand in field c (R91). -/
def bitField (v : Bool) : Byte := 0#7 ++ BitVec.ofBool v

/-- A register number in field c (R91). -/
def regField (r : BitVec 2) : Byte := 0#6 ++ r

/-- The word of a command: the `word` column of R91. -/
def encode : Instr → Word
  | .nop                   => formatWord 0x0#4 0 0 0
  | .rst                   => formatWord 0x1#4 0 0 0
  | .rdReg r               => formatWord 0x2#4 0 0 (regField r)
  | .trLeaf idx sym        => formatWord 0x3#4 idx 0 (symbolField sym)
  | .trNode idx left right => formatWord 0x4#4 idx left right
  | .setRoot idx           => formatWord 0x5#4 0 0 idx
  | .ctClr sym             => formatWord 0x6#4 0 0 (symbolField sym)
  | .ctNew sym             => formatWord 0x7#4 0 0 (symbolField sym)
  | .ctBit v               => formatWord 0x8#4 0 0 (bitField v)
  | .pkBegin               => formatWord 0x9#4 0 0 0
  | .pkSym sym             => formatWord 0xA#4 0 0 (symbolField sym)
  | .pkChar ch             => formatWord 0xB#4 0 0 ch
  | .pkEnd                 => formatWord 0xC#4 0 0 0
  | .dkBegin raw           => formatWord 0xD#4 0 0 (bitField raw)
  | .dkByte byte           => formatWord 0xE#4 0 0 byte
  | .dkEnd                 => formatWord 0xF#4 0 0 0

/-- The host's reading of the decoder: the command of an opcode-table word whose low `nbits` bits
are those of `w` and whose other bits are zero. Command words are 32-bit units (R65). -/
def decodeTableWord (nbits w : Nat) : Option Instr := decode (BitVec.ofNat 32 (w % 2 ^ nbits))

end Sys2Proof
end

