-- ==== Sys2Proof/Config.lean ====
section
/-! DEFINITION. The constants the spec fixes (00_scope.md R12 to R14), the range of the open
parameter PBUF_BITS (R15) and the host-side parameter DISCOVERY_ORDER (40_host_construction.md R128). -/

namespace Sys2Proof.Config

/-- NSYM, the number of symbols (R12). -/
def nsym : Nat := 128

/-- MAXCODE, the greatest length of a code in bits (R13). -/
def maxCode : Nat := 127

/-- NTR, the number of entries of the tree memory (R14). -/
def ntr : Nat := 256

/-- NCT, the number of entries of the code-table memory (R14). -/
def nct : Nat := 128

/-- CH_ZERO, the character code PK_CHAR takes for the bit 0 (R14; ASCII, log entry 10). -/
def chZero : Byte := 0x30#8

/-- CH_ONE, the character code PK_CHAR takes for the bit 1 (R14; ASCII, log entry 10). -/
def chOne : Byte := 0x31#8

/-- ID_VALUE, what register 3 reads (R14, R36). -/
def idValue : Word := 0x48425001#32

/-- The greatest value R15 allows the open parameter PBUF_BITS. -/
def pbufBitsMax : Nat := 4294967295

/-- DESIGN CHOICE (log entry 2): what the field `pbufBits` holds at reset, the value the spec's
test vectors use (R15). No statement rests on it. -/
def pbufBitsReset : Nat := 65536

/-- DISCOVERY_ORDER, the host-side parameter of R128. -/
inductive DiscoveryOrder where
  /-- The order of first appearance in the source: the default reading (R128). -/
  | firstOccurrence
  /-- The order of a scan of the count table by ascending ordinal (R128). -/
  | ascendingOrdinal
  deriving DecidableEq, Repr

end Sys2Proof.Config
end

