-- ==== Sys2Proof/Machine/Table.lean ====
section
/-! DEFINITION. A table memory by index as plain data (10_state.md R40, R42): a list of index and
entry, indices strictly rising, an index that is not listed holding nothing (invalid, absent; R51). -/

namespace Sys2Proof.Machine

/-- A sparse table: the entries something has written, by rising index (log entry 7). -/
abbrev Table (α : Type) := List (Nat × α)

/-- The entry at an index; none for an index nothing has written (R51). -/
def Table.get {α : Type} : Table α → Nat → Option α
  | [], _ => none
  | (j, v) :: rest, k => if j = k then some v else Table.get rest k

/-- Write an entry, keeping the indices in rising order. -/
def Table.put {α : Type} : Table α → Nat → α → Table α
  | [], k, v => [(k, v)]
  | (j, u) :: rest, k, v =>
    if k < j then (k, v) :: (j, u) :: rest
    else if j = k then (k, v) :: rest
    else (j, u) :: Table.put rest k v

/-- Make an entry hold nothing. -/
def Table.erase {α : Type} (t : Table α) (k : Nat) : Table α := t.filter (fun e => e.1 ≠ k)

/-- The canonical form: indices strictly rising and below the size of the memory. -/
abbrev Table.wf {α : Type} (size : Nat) (t : Table α) : Prop :=
  t.Pairwise (fun e f => e.1 < f.1) ∧ ∀ e ∈ t, e.1 < size

end Sys2Proof.Machine
end

