-- ==== Sys2Proof/Machine/State.lean ====
section
/-! DEFINITION. The state of the block (10_state.md R20), its output traces (R45), and its surroundings
(R46): the host's inputs not yet taken (20_memory.md R62) and the open parameter PBUF_BITS (00_scope.md
R15). All plain data. -/

namespace Sys2Proof.Machine

/-- MODE (R23). -/
inductive Mode where
  /-- 0: no session is active. -/
  | idle
  /-- 1: an encode session is active. -/
  | pack
  /-- 2: a decode session is active. -/
  | dec
  /-- 3: a fault has ended all activity. -/
  | fault
  deriving DecidableEq, Repr

/-- PHASE (R24). -/
inductive Phase where
  /-- 0: the byte with the marker has not been taken yet. -/
  | head
  /-- 1: the marker byte has been taken. -/
  | body
  deriving DecidableEq, Repr

/-- A valid entry of the tree memory (R41). -/
inductive TrEntry where
  /-- A leaf, holding exactly one symbol. -/
  | leaf (sym : Symbol)
  /-- An internal node: the child taken on bit 0 and the child taken on bit 1. -/
  | int (left right : NodeIndex)
  deriving DecidableEq, Repr

/-- The eight causes of 60_exceptions.md R211. -/
inductive Cause where
  /-- E_BITCHAR: PK_CHAR with a character that is no bit. -/
  | bitChar
  /-- E_MISSING: PK_SYM with no code. -/
  | missing
  /-- E_NOMARK: no marker in the first byte, or no byte at all; the one cause that does not stop the session. -/
  | noMark
  /-- E_MIDWALK: the stream ended inside a code. -/
  | midWalk
  /-- E_TREE: a tree entry that is not what the walk needs. -/
  | tree
  /-- E_SEQ: a command not admissible now. -/
  | seq
  /-- E_ILLEGAL: a word that is no command. -/
  | illegal
  /-- E_OVERFLOW: PBUF or a code entry is full. -/
  | overflow
  deriving DecidableEq, Repr

/-- What the host can hand to the block between two steps (R62, R240). -/
inductive HostInput where
  /-- A 32-bit command word on the port CMD. -/
  | word (w : Word)
  /-- The hardware reset input. -/
  | reset
  deriving DecidableEq, Repr

/-- The state of the block: the record of R20 and nothing else. -/
structure Block where
  /-- MODE (R23). -/
  mode : Mode
  /-- PHASE (R24). -/
  phase : Phase
  /-- RAW (R25). -/
  raw : Bool
  /-- DONE (R26). -/
  done : Bool
  /-- ERR, sticky fault flags (R27). -/
  err : BitVec 8
  /-- FCAUSE, cause code of the first fault since reset (R28). -/
  fcause : BitVec 4
  /-- FINFO, information byte of the first fault since reset (R29). -/
  finfo : Byte
  /-- PBUF, the logical bit-string of the encode session (R31). -/
  pbuf : Bits
  /-- CUR, the tree-walk position (R32). -/
  cur : NodeIndex
  /-- ROOT (R33). -/
  root : NodeIndex
  /-- CTSEL (R34). -/
  ctsel : Symbol
  /-- TR, the tree memory; an index not listed is invalid (R40; log entry 7). -/
  tr : Table TrEntry
  /-- CT, the code-table memory; an index not listed is absent (R42; log entry 7). -/
  ct : Table Bits
  deriving DecidableEq, Repr

/-- The output traces, which R20 lets a model carry in the state (R45). -/
structure Traces where
  /-- BYTE_OUT, packed bytes, oldest first. -/
  byteOut : List Byte
  /-- DEC_OUT, decoded items, oldest first. -/
  decOut : List Byte
  /-- RSP_OUT, register responses, oldest first. -/
  rspOut : List Word
  deriving DecidableEq, Repr

/-- What R46 says is no state of the block, and what a step without arguments must find beside it:
the model's own. -/
structure Surroundings where
  /-- PBUF_BITS, the capacity of PBUF (R15; log entry 2). No step changes it. -/
  pbufBits : Nat
  /-- The host's inputs not yet taken, oldest first (R22, R62; log entry 1). -/
  cmdIn : List HostInput
  deriving DecidableEq, Repr

/-- What a step acts on: the block (R20), its traces (R45), and its surroundings (R46; log entry 21). -/
structure State extends Block, Traces, Surroundings
  deriving DecidableEq, Repr

/-- Reasons the machine could stop without a next state: none exists. The block's own faults are next
states with the fault recorded (R216), and `step` is total (R258). Nobody raises one (log entry 16; safe). -/
inductive Fault : Type
  deriving DecidableEq, Repr

/-- Reasons an instruction could have no meaning. -/
inductive Refusal where
  /-- Would be raised by an arm of `exec` without a meaning, naming its mnemonic; no arm raises it now (safe). -/
  | notModelled (mnemonic : String)
  deriving DecidableEq, Repr

/-- The outcome type of the model's operations. -/
abbrev Result := Host.Outcome State Fault Refusal

/-- The reset state of the block: every component at the value R50 lists. -/
def Block.reset : Block where
  mode := .idle
  phase := .head
  raw := false
  done := false
  err := 0#8
  fcause := 0#4
  finfo := 0#8
  pbuf := []
  cur := 0#8
  root := 0#8
  ctsel := 0#7
  tr := []
  ct := []

/-- The machine right after reset at the start of a run: the block reset (R50), the traces empty
(R52), and the surroundings as the model's log entries 1 and 2 choose. -/
def State.reset : State where
  toBlock := Block.reset
  byteOut := []
  decOut := []
  rspOut := []
  pbufBits := Config.pbufBitsReset
  cmdIn := []

end Sys2Proof.Machine
end

