-- ==== Sys2Proof/Machine/Flags.lean ====
section
/-! DEFINITION. The fault flags and codes (10_state.md R27, R28; 60_exceptions.md R211) and the
numeric values of MODE, PHASE and one-bit flags (R20). -/

namespace Sys2Proof.Machine

/-- The number of a cause's bit in ERR: its code less one (R27, R211). -/
def Cause.errIndex : Cause → Nat
  | .bitChar  => 0
  | .missing  => 1
  | .noMark   => 2
  | .midWalk  => 3
  | .tree     => 4
  | .seq      => 5
  | .illegal  => 6
  | .overflow => 7

/-- The ERR byte with just this cause's bit set (R27). -/
def Cause.errBit (c : Cause) : BitVec 8 := 1#8 <<< c.errIndex

/-- The code FCAUSE records, 1 to 8 (R211). -/
def Cause.code (c : Cause) : BitVec 4 := BitVec.ofNat 4 (c.errIndex + 1)

/-- Whether the fault stops the session at once: every cause but E_NOMARK (R211, R216). -/
def Cause.stops : Cause → Bool
  | .noMark => false
  | _ => true

/-- The two bits of MODE (R23). -/
def Mode.code : Mode → BitVec 2
  | .idle  => 0#2
  | .pack  => 1#2
  | .dec   => 2#2
  | .fault => 3#2

/-- The bit of PHASE (R24). -/
def Phase.code : Phase → BitVec 1
  | .head => 0#1
  | .body => 1#1

end Sys2Proof.Machine
end

