-- ==== Sys2Proof/Machine/Operands.lean ====
section
/-! DEFINITION. The operand forms: the bit of a character, output items, and the four readable
registers as views of the state (10_state.md R35 to R38). -/

namespace Sys2Proof.Machine

/-- The bit a character stands for; none for the other 254 values (42_pack.md R168). -/
def charBit (ch : Byte) : Option Bool :=
  if ch = Config.chZero then some false else if ch = Config.chOne then some true else none

/-- `zext_8(sym)`: a symbol as an output item or an information byte (30_encoding.md R104). -/
def symbolItem (sym : Symbol) : Byte := 0#1 ++ sym

/-- `0x80 | v`: a raw payload bit as an output item (R104). -/
def rawItem (v : Bool) : Byte := 0x80#8 ||| (0#7 ++ BitVec.ofBool v)

/-- Register 0, STATUS (R35). -/
def State.status (s : State) : Word :=
  s.finfo ++ 0#4 ++ s.fcause ++ s.err ++ 0#3 ++ BitVec.ofBool s.done ++ BitVec.ofBool s.raw ++
    s.phase.code ++ s.mode.code

/-- Register 1, PLEN (R37). -/
def State.plen (s : State) : Word := BitVec.ofNat 32 s.pbuf.length

/-- Register 2, WALK (R38). -/
def State.walkReg (s : State) : Word := 0#9 ++ s.ctsel ++ s.root ++ s.cur

/-- The readable registers by number (44_system.md R202). -/
def State.readReg (s : State) (r : BitVec 2) : Word :=
  if r = 0#2 then s.status
  else if r = 1#2 then s.plen
  else if r = 2#2 then s.walkReg
  else Config.idValue

end Sys2Proof.Machine
end

