-- ==== Sys2Proof/Machine/Stream.lean ====
section
/-! DEFINITION. The packed byte stream: bits of a byte, `pack` (42_pack.md R160) and `unpack`
(43_unpack_decode.md R180), as functions on lists. -/

namespace Sys2Proof.Machine

/-- The bits of a byte, most significant first (20_memory.md R63). -/
def bitsOfByte (y : Byte) : Bits :=
  [y.getLsbD 7, y.getLsbD 6, y.getLsbD 5, y.getLsbD 4, y.getLsbD 3, y.getLsbD 2, y.getLsbD 1, y.getLsbD 0]

/-- The byte of eight bits, the first one bit 7 (R63, R160). -/
def byteOfBits (b7 b6 b5 b4 b3 b2 b1 b0 : Bool) : Byte :=
  BitVec.ofBool b7 ++ BitVec.ofBool b6 ++ BitVec.ofBool b5 ++ BitVec.ofBool b4 ++
    BitVec.ofBool b3 ++ BitVec.ofBool b2 ++ BitVec.ofBool b1 ++ BitVec.ofBool b0

/-- `padding = 8 − (len mod 8)`, always 1 to 8 (R160, R161). -/
def padding (len : Nat) : Nat := 8 - len % 8

/-- The padding marker: `padding − 1` zeros and a one (R160). -/
def marker (len : Nat) : Bits := List.replicate (padding len - 1) false ++ [true]

/-- Split into 8-bit groups, each one byte (R160). The padded string's length is a multiple of 8, so
no bits are left over (R67). -/
def groupBytes : Bits → List Byte
  | b7 :: b6 :: b5 :: b4 :: b3 :: b2 :: b1 :: b0 :: rest =>
    byteOfBits b7 b6 b5 b4 b3 b2 b1 b0 :: groupBytes rest
  | _ => []

/-- `pack` (R160). -/
def pack (B : Bits) : List Byte := groupBytes (marker B.length ++ B)

/-- The bits after the first 1; none when there is no 1 (R180, R181). -/
def afterMarker : Bits → Bits
  | [] => []
  | true :: rest => rest
  | false :: rest => afterMarker rest

/-- The payload bits of the first byte of a stream: those below its highest 1 bit, and none for
`0x00` (R181, R182). -/
def headPayload (y : Byte) : Bits := if y = 0#8 then [] else afterMarker (bitsOfByte y)

/-- The bits of a byte sequence (R180). -/
def bitsOfBytes (ys : List Byte) : Bits := ys.flatMap bitsOfByte

/-- `unpack` (R180, R183): the logical bit-string, and whether a marker was found. -/
def unpack (ys : List Byte) : Bits × Bool :=
  let S := bitsOfBytes ys
  if (S.take 8).any id then (S.drop ((S.take 8).findIdx id + 1), true) else (S.drop 8, false)

end Sys2Proof.Machine
end

