-- ==== Sys2Proof/Machine/Ops.lean ====
section
/-! DEFINITION. The named operations over the state: table access, output, fault entry
(60_exceptions.md R216), mode admission (30_encoding.md R98, R99), reset, and taking the host's next
input (20_memory.md R62). -/

namespace Sys2Proof.Machine

/-- `TR[i]` (00_scope.md R18); none is invalid. -/
def State.readTr (s : State) (i : NodeIndex) : Option TrEntry := s.tr.get i.toNat

/-- `TR[i] <- e` (R18). -/
def State.writeTr (s : State) (i : NodeIndex) (e : TrEntry) : State := { s with tr := s.tr.put i.toNat e }

/-- `CT[sym]` (R18); none is absent. -/
def State.readCt (s : State) (sym : Symbol) : Option Bits := s.ct.get sym.toNat

/-- `CT[sym] <- code` (R18). -/
def State.writeCt (s : State) (sym : Symbol) (code : Bits) : State := { s with ct := s.ct.put sym.toNat code }

/-- `CT[sym] <- absent` (R154). -/
def State.clearCt (s : State) (sym : Symbol) : State := { s with ct := s.ct.erase sym.toNat }

/-- `emit BYTE_OUT(b)` for each byte in order (R18, R45). -/
def State.emitBytes (s : State) (bs : List Byte) : State := { s with byteOut := s.byteOut ++ bs }

/-- `emit DEC_OUT(d)` (R18, R45). -/
def State.emitDec (s : State) (d : Byte) : State := { s with decOut := s.decOut ++ [d] }

/-- `emit RSP_OUT(w)` (R18, R45). -/
def State.emitRsp (s : State) (w : Word) : State := { s with rspOut := s.rspOut ++ [w] }

/-- `CUR <- i` (R18, R32). -/
def State.setCur (s : State) (i : NodeIndex) : State := { s with cur := i }

/-- Fault entry, `raise E_X(info)` (R216). -/
def State.raise (s : State) (c : Cause) (info : Byte) : State :=
  { s with
    err := s.err ||| c.errBit
    fcause := if s.fcause = 0#4 then c.code else s.fcause
    finfo := if s.fcause = 0#4 then info else s.finfo
    done := false
    mode := if c.stops then .fault else s.mode }

/-- Whether a command is admitted in a mode other than FAULT: the table of R98. -/
def admittedIn : Instr → Mode → Bool
  | .nop,          _ => true
  | .rst,          _ => true
  | .rdReg _,      _ => true
  | .trLeaf _ _,   m => m == .idle
  | .trNode _ _ _, m => m == .idle
  | .setRoot _,    m => m == .idle
  | .ctClr _,      m => m == .idle
  | .ctNew _,      m => m == .idle
  | .ctBit _,      m => m == .idle
  | .pkBegin,      m => m == .idle
  | .pkSym _,      m => m == .pack
  | .pkChar _,     m => m == .pack
  | .pkEnd,        m => m == .pack
  | .dkBegin _,    m => m == .idle
  | .dkByte _,     m => m == .dec
  | .dkEnd,        m => m == .dec

/-- `w[31:24]` of a command's word, what E_SEQ records (R215): a legal word is its command's encoding
(R94; log entry 19). -/
def commandByte (i : Instr) : Byte := topByte (encode i)

/-- The two checks before a session or table command's own rule (R90): ignored in FAULT (R99), E_SEQ
in a mode that does not admit it (R98). -/
def State.whenAdmitted (s : State) (i : Instr) (body : State → State) : State :=
  if s.mode = .fault then s
  else if admittedIn i s.mode then body s
  else s.raise .seq (commandByte i)

/-- Reset (10_state.md R50; 70_reset_and_hazards.md R241): the block takes its reset state; the items
already emitted stay (R45), and so do the surroundings (log entry 11). -/
def State.resetBlock (s : State) : State := { s with toBlock := Block.reset }

/-- An illegal word (R96): E_ILLEGAL with `w[31:24]`, and no effect at all in FAULT (R99). -/
def illegalWord (w : Word) (s : State) : State :=
  if s.mode = .fault then s else s.raise .illegal (topByte w)

/-- Take the host's oldest input off the port (R62). -/
def State.takeInput (s : State) : Option (HostInput × State) :=
  match s.cmdIn with
  | [] => none
  | x :: rest => some (x, { s with cmdIn := rest })

/-- Put a command word where the next step takes its input from (R62). -/
def State.placeWord (s : State) (w : Word) : State := { s with cmdIn := .word w :: s.cmdIn }

end Sys2Proof.Machine
end

