-- ==== Sys2Proof/Machine/Decoding.lean ====
section
/-! DEFINITION. The decode session's commands (43_unpack_decode.md R185 to R189). -/

namespace Sys2Proof.Machine

/-- The entry is a valid internal node (R185). -/
def isInternal : Option TrEntry → Bool
  | some (.int _ _) => true
  | _ => false

/-- DK_BEGIN raw (R185): only the root entry is looked at, and only in a symbol session. -/
def execDkBegin (raw : Bool) (s : State) : Result :=
  .next (s.whenAdmitted (.dkBegin raw) fun s =>
    if raw = false ∧ isInternal (s.readTr s.root) = false then s.raise .tree s.root
    else { s with raw := raw, phase := .head, cur := s.root, done := false, mode := .dec })

/-- The walk step for one payload bit (R188): `.ok` goes on, `.error` has raised E_TREE and stops. A
CUR that is no valid internal node, which R30 (f) rules out, is itself the bad entry (log entry 6). -/
def State.walk (s : State) (v : Bool) : Except State State :=
  match s.readTr s.cur with
  | some (.int left right) =>
    let child := if v then right else left
    match s.readTr child with
    | none => .error (s.raise .tree child)
    | some (.leaf sym) => .ok ((s.emitDec (symbolItem sym)).setCur s.root)
    | some (.int _ _) => .ok (s.setCur child)
  | _ => .error (s.raise .tree s.cur)

/-- Put payload bits through the session one by one (R186): emitted in a raw session, walked in a
symbol session; an E_TREE drops the rest. -/
def State.feed (s : State) : Bits → State
  | [] => s
  | v :: vs =>
    if s.raw then (s.emitDec (rawItem v)).feed vs
    else
      match s.walk v with
      | .ok t => t.feed vs
      | .error t => t

/-- DK_BYTE byte (R186): the first byte loses its marker; a first byte `0x00` raises E_NOMARK, gives
no payload and the session goes on (R182). -/
def execDkByte (byte : Byte) (s : State) : Result :=
  .next (s.whenAdmitted (.dkByte byte) fun s =>
    match s.phase with
    | .body => s.feed (bitsOfByte byte)
    | .head =>
      let s := { s with phase := .body }
      if byte = 0#8 then s.raise .noMark 0#8 else s.feed (headPayload byte))

/-- DK_END (R189): the end-of-stream checks. -/
def execDkEnd (s : State) : Result :=
  .next (s.whenAdmitted .dkEnd fun s =>
    let s := if s.phase = .head then s.raise .noMark 0#8 else s
    if s.raw = false ∧ s.cur ≠ s.root then s.raise .midWalk s.cur
    else if s.err ≠ 0#8 then { s with mode := .fault }
    else { s with mode := .idle, done := true })

end Sys2Proof.Machine
end

