-- ==== Sys2Proof/Machine/Packing.lean ====
section
/-! DEFINITION. The encode session's commands (42_pack.md R165 to R169). -/

namespace Sys2Proof.Machine

/-- PK_BEGIN (R165). -/
def execPkBegin (s : State) : Result :=
  .next (s.whenAdmitted .pkBegin fun s => { s with pbuf := [], done := false, mode := .pack })

/-- Append bits to PBUF, or raise E_OVERFLOW with nothing appended when they do not fit (R166, R168). -/
def State.appendBits (s : State) (bits : Bits) (info : Byte) : State :=
  if s.pbuf.length + bits.length > s.pbufBits then s.raise .overflow info
  else { s with pbuf := s.pbuf ++ bits }

/-- PK_SYM sym (R166): E_MISSING before E_OVERFLOW. -/
def execPkSym (sym : Symbol) (s : State) : Result :=
  .next (s.whenAdmitted (.pkSym sym) fun s =>
    match s.readCt sym with
    | none => s.raise .missing (symbolItem sym)
    | some code => s.appendBits code (symbolItem sym))

/-- PK_CHAR ch (R168): E_BITCHAR before E_OVERFLOW. -/
def execPkChar (ch : Byte) (s : State) : Result :=
  .next (s.whenAdmitted (.pkChar ch) fun s =>
    match charBit ch with
    | none => s.raise .bitChar ch
    | some v => s.appendBits [v] ch)

/-- PK_END (R169): emit the packed bytes; PBUF keeps its contents. -/
def execPkEnd (s : State) : Result :=
  .next (s.whenAdmitted .pkEnd fun s => { s.emitBytes (pack s.pbuf) with done := true, mode := .idle })

end Sys2Proof.Machine
end

