-- ==== Sys2Proof/Machine/System.lean ====
section
/-! DEFINITION. The system commands NOP, RST, RD_REG (44_system.md): admitted in every mode. -/

namespace Sys2Proof.Machine

/-- NOP (R200): no state change, no output item, in every mode. -/
def execNop (s : State) : Result := .next s

/-- RST (R201): every component to its reset value, in every mode. -/
def execRst (s : State) : Result := .next s.resetBlock

/-- RD_REG r (R202): emit the register's value; no state changes, in every mode. -/
def execRdReg (r : BitVec 2) (s : State) : Result := .next (s.emitRsp (s.readReg r))

end Sys2Proof.Machine
end

