-- ==== Sys2Proof/Machine/TableLoad.lean ====
section
/-! DEFINITION. The table-load commands (41_table_load.md R150 to R156), admitted in IDLE only. -/

namespace Sys2Proof.Machine

/-- TR_LEAF idx, sym (R151). -/
def execTrLeaf (idx : NodeIndex) (sym : Symbol) (s : State) : Result :=
  .next (s.whenAdmitted (.trLeaf idx sym) fun s => s.writeTr idx (.leaf sym))

/-- TR_NODE idx, left, right (R152): the children are not checked. -/
def execTrNode (idx left right : NodeIndex) (s : State) : Result :=
  .next (s.whenAdmitted (.trNode idx left right) fun s => s.writeTr idx (.int left right))

/-- SET_ROOT idx (R153): the entry named is not looked at, and CUR is not changed. -/
def execSetRoot (idx : NodeIndex) (s : State) : Result :=
  .next (s.whenAdmitted (.setRoot idx) fun s => { s with root := idx })

/-- CT_CLR sym (R154): CTSEL is not changed. -/
def execCtClr (sym : Symbol) (s : State) : Result :=
  .next (s.whenAdmitted (.ctClr sym) fun s => s.clearCt sym)

/-- CT_NEW sym (R155): the entry becomes present with the empty code and is selected. -/
def execCtNew (sym : Symbol) (s : State) : Result :=
  .next (s.whenAdmitted (.ctNew sym) fun s => { s.writeCt sym [] with ctsel := sym })

/-- CT_BIT v (R156): E_SEQ on an absent entry, E_OVERFLOW on one of 127 bits, else append the bit. -/
def execCtBit (v : Bool) (s : State) : Result :=
  .next (s.whenAdmitted (.ctBit v) fun s =>
    match s.readCt s.ctsel with
    | none => s.raise .seq (commandByte (.ctBit v))
    | some code =>
      if code.length = Config.maxCode then s.raise .overflow (symbolItem s.ctsel)
      else s.writeCt s.ctsel (code ++ [v]))

end Sys2Proof.Machine
end

