-- ==== Sys2Proof/Machine/Dispatch.lean ====
section
/-! DEFINITION. One arm per command, in the order of 30_encoding.md R91. -/

namespace Sys2Proof.Machine

/-- Execute a command by its own rule, with the mode checks of R90. -/
def exec (i : Instr) (s : State) : Host.Outcome State Fault Refusal :=
  match i with
  | .nop => Sys2Proof.Machine.execNop s
  | .rst => Sys2Proof.Machine.execRst s
  | .rdReg r => Sys2Proof.Machine.execRdReg r s
  | .trLeaf idx sym => Sys2Proof.Machine.execTrLeaf idx sym s
  | .trNode idx left right => Sys2Proof.Machine.execTrNode idx left right s
  | .setRoot idx => Sys2Proof.Machine.execSetRoot idx s
  | .ctClr sym => Sys2Proof.Machine.execCtClr sym s
  | .ctNew sym => Sys2Proof.Machine.execCtNew sym s
  | .ctBit v => Sys2Proof.Machine.execCtBit v s
  | .pkBegin => Sys2Proof.Machine.execPkBegin s
  | .pkSym sym => Sys2Proof.Machine.execPkSym sym s
  | .pkChar ch => Sys2Proof.Machine.execPkChar ch s
  | .pkEnd => Sys2Proof.Machine.execPkEnd s
  | .dkBegin raw => Sys2Proof.Machine.execDkBegin raw s
  | .dkByte byte => Sys2Proof.Machine.execDkByte byte s
  | .dkEnd => Sys2Proof.Machine.execDkEnd s

end Sys2Proof.Machine
end

