-- ==== Sys2Proof/Machine/Deliver.lean ====
section
/-! DEFINITION. The step function of 30_encoding.md R90 on one word or one reset. -/

namespace Sys2Proof.Machine

/-- `step(σ, w)` of R90: decode the word and execute its command, or treat it as illegal. -/
def deliverWord (w : Word) (s : State) : Result :=
  match decode w with
  | some i => exec i s
  | none => .next (illegalWord w s)

/-- One input of the host (R62, R240). -/
def deliver (x : HostInput) (s : State) : Result :=
  match x with
  | .word w => deliverWord w s
  | .reset => .next s.resetBlock

end Sys2Proof.Machine
end

