-- ==== Sys2Proof/Machine/Step.lean ====
section
/-! DEFINITION. One step of the machine: take the host's next input and carry it out whole (20_memory.md R70). -/

namespace Sys2Proof.Machine

/-- One step: the oldest input is taken and carried out (R62, R90, R240); when the host has sent
nothing, nothing changes (R70; log entry 1). -/
def step (s : State) : Host.Outcome State Fault Refusal :=
  match s.takeInput with
  | none => .next s
  | some (x, t) => deliver x t

/-- The state with the table word `w` as the host's next input. -/
def State.withFetchWord (s : State) (nbits w : Nat) : State := s.placeWord (BitVec.ofNat 32 (w % 2 ^ nbits))

end Sys2Proof.Machine
end

