-- ==== Sys2Proof/Machine/Codec.lean ====
section
/-! DEFINITION. The host-side data model (40_host_construction.md R121 to R123), the code table
generator (R136), and the functions `encode` (42_pack.md R164) and `decode` (43_unpack_decode.md R184). -/

namespace Sys2Proof.Machine

/-- SymbolFrequency (R121): an internal one carries no symbol. Probabilities are exact rationals (R131). -/
structure SymbolFrequency where
  symbol : Option Symbol
  probability : Rat
  deriving DecidableEq, Repr

/-- TreeNode (R122): a strict binary tree, each node owning its children. -/
inductive TreeNode where
  /-- No children, exactly one symbol. -/
  | leaf (sym : Symbol) (probability : Rat)
  /-- Exactly two children and an aggregated probability. -/
  | node (probability : Rat) (left right : TreeNode)
  deriving DecidableEq, Repr

/-- The `data` component of a node (R122). -/
def TreeNode.data : TreeNode → SymbolFrequency
  | .leaf sym p => ⟨some sym, p⟩
  | .node p _ _ => ⟨none, p⟩

/-- The symbols at the leaves, left to right. -/
def TreeNode.leaves : TreeNode → List Symbol
  | .leaf sym _ => [sym]
  | .node _ l r => l.leaves ++ r.leaves

/-- The number of internal nodes (R124). -/
def TreeNode.internalCount : TreeNode → Nat
  | .leaf _ _ => 0
  | .node _ l r => l.internalCount + r.internalCount + 1

/-- Not a leaf (R184: the root must be internal). -/
def TreeNode.isNode : TreeNode → Bool
  | .leaf _ _ => false
  | .node _ _ _ => true

/-- CodeTable (R123): symbol ordinal to bit-string, unused slots unset. -/
abbrev CodeTable := Table Bits

/-- The code of a symbol; none where the slot is unset (R123). -/
def CodeTable.code (ct : CodeTable) (sym : Symbol) : Option Bits := Table.get ct sym.toNat

/-- `gen(node, acc, table)` (R136): 0 to the left, 1 to the right, the path so far recorded at a leaf. -/
def TreeNode.gen : TreeNode → Bits → CodeTable → CodeTable
  | .leaf sym _, acc, t => Table.put t sym.toNat acc
  | .node _ l r, acc, t => r.gen (acc ++ [true]) (l.gen (acc ++ [false]) t)

/-- `codes(root)` (R136). -/
def TreeNode.codes (root : TreeNode) : CodeTable := root.gen [] []

/-- The error kinds of the source document (60_exceptions.md R212, R213). -/
inductive CodecError where
  /-- InvalidBitCharacter (R163). -/
  | invalidBitCharacter (ch : Byte)
  /-- MissingCode (R164). -/
  | missingCode (sym : Symbol)
  /-- CorruptStream: the bit-string ended inside a code (R184). -/
  | endedMidDescent
  /-- CorruptStream: no marker in the first byte (R182). -/
  | noMarker
  /-- EmptySource: zero distinct symbols observed (R130). -/
  | emptySource
  /-- EndOfInput / source read failure before the end of the source (R142). -/
  | sourceFailure
  deriving DecidableEq, Repr

/-- A logical bit-string from characters: any other character is a contract violation (R163). -/
def bitsOfChars : List Byte → Except CodecError Bits
  | [] => .ok []
  | ch :: rest =>
    if ch = Config.chZero then (bitsOfChars rest).map (false :: ·)
    else if ch = Config.chOne then (bitsOfChars rest).map (true :: ·)
    else .error (.invalidBitCharacter ch)

/-- The codes of the symbols in order, or MissingCode for the first symbol without one (R164). -/
def concatCodes (ct : CodeTable) : List Symbol → Except CodecError Bits
  | [] => .ok []
  | sym :: rest =>
    match ct.code sym with
    | none => .error (.missingCode sym)
    | some code => (concatCodes ct rest).map (code ++ ·)

/-- `encode` (R164). -/
def encodeText (source : List Symbol) (ct : CodeTable) : Except CodecError (List Byte) :=
  (concatCodes ct source).map pack

/-- The tree walk of `decode` (R184): the symbols emitted, and the subtree the walk stands on. The
walk never stands on a leaf of a root that is internal. DESIGN CHOICE (log entry 24): on a leaf, which
only a root that is a leaf allows, there is no edge to follow, and the remaining bits are dropped. -/
def walkTree (root : TreeNode) : TreeNode → Bits → List Symbol × TreeNode
  | pos, [] => ([], pos)
  | .leaf sym p, _ :: _ => ([], .leaf sym p)
  | .node _ l r, v :: vs =>
    match (if v then r else l) with
    | .leaf sym _ => let (out, pos) := walkTree root root vs; (sym :: out, pos)
    | .node p l' r' => walkTree root (.node p l' r') vs

/-- `decode` (R184): the walk must end on the root, and a marker must have been found. DESIGN CHOICE (log
entry 24): for a root that is a leaf, where R184 gives no result, every payload bit is dropped and the
text is empty, or CorruptStream without a marker. -/
def decodeBytes (bytes : List Byte) (root : TreeNode) : Except CodecError (List Symbol) :=
  let (B, found) := unpack bytes
  let (out, pos) := walkTree root root B
  if pos ≠ root then .error .endedMidDescent
  else if found = false then .error .noMarker
  else .ok out

end Sys2Proof.Machine
end

