-- ==== Sys2Proof/Machine/Construction.lean ====
section
/-! DEFINITION. The host-side construction (40_host_construction.md R126 to R138): frequency list,
two-queue tree builder, and the command images that load a tree and a code table. No step of the
block executes any of it (R120). -/

namespace Sys2Proof.Machine

/-- The whole source, read character by character (R142): `none` is a failure before the end, and
reaching the end is the normal end of counting (90_conflicts.md C4). -/
def readSource : List (Option Symbol) → Except CodecError (List Symbol)
  | [] => .ok []
  | none :: _ => .error .sourceFailure
  | some sym :: rest => (readSource rest).map (sym :: ·)

/-- The distinct symbols in the order of first appearance (R128). -/
def firstSeen : List Symbol → List Symbol
  | [] => []
  | sym :: rest => sym :: (firstSeen rest).filter (· ≠ sym)

/-- All 128 ordinals, ascending (R12). -/
def alphabet : List Symbol := (List.range Config.nsym).map (BitVec.ofNat 7)

/-- The distinct symbols in discovery order (R128). -/
def discovered (order : Config.DiscoveryOrder) (source : List Symbol) : List Symbol :=
  match order with
  | .firstOccurrence => firstSeen source
  | .ascendingOrdinal => alphabet.filter (source.contains ·)

/-- `insert(L, e)` (R127): past every entry whose probability is not greater. -/
def insertEntry (e : SymbolFrequency) : List SymbolFrequency → List SymbolFrequency
  | [] => [e]
  | f :: rest => if e.probability < f.probability then e :: f :: rest else f :: insertEntry e rest

/-- The entry of a symbol: `count / total` (R126, R131). -/
def entryOf (source : List Symbol) (sym : Symbol) : SymbolFrequency :=
  ⟨some sym, (source.count sym : Rat) / (source.length : Rat)⟩

/-- The synthetic entry of the one-symbol case: ordinal plus one, or 0 after 127 (R129). -/
def syntheticEntry (sym : Symbol) : SymbolFrequency := ⟨some (if sym = 127#7 then 0#7 else sym + 1#7), 0⟩

/-- The entries inserted in discovery order, sorted ascending with ties in discovery order (R127). -/
def sortedEntries (order : Config.DiscoveryOrder) (source : List Symbol) : List SymbolFrequency :=
  (discovered order source).foldl (fun L sym => insertEntry (entryOf source sym) L) []

/-- The frequency list of a source that has been read (R126), with the synthetic entry in front when one distinct symbol was
observed (R129), and EmptySource when none was (R130). Every entry here has a symbol, so the default of
`getD` is never taken (log entry 22). -/
def freqList (order : Config.DiscoveryOrder) (source : List Symbol) :
    Except CodecError (List SymbolFrequency) :=
  match sortedEntries order source with
  | [] => .error .emptySource
  | [e] => .ok [syntheticEntry (e.symbol.getD 0#7), e]
  | L => .ok L

/-- The Frequency Table Builder on a source as it is read (R126, R142): a source that fails before its
end gives no list. -/
def frequencyTable (order : Config.DiscoveryOrder) (input : List (Option Symbol)) :
    Except CodecError (List SymbolFrequency) :=
  match readSource input with
  | .error e => .error e
  | .ok source => freqList order source

/-- A tree node with the TR index the canonical layout gives it (R137). -/
structure Item where
  index : Nat
  tree : TreeNode
  deriving DecidableEq, Repr

/-- `probability` of an item's node. -/
def Item.probability (x : Item) : Rat := x.tree.data.probability

/-- An internal node as it is created: its TR index and its children's (R137). -/
structure NodeRecord where
  index : Nat
  left : Nat
  right : Nat
  deriving DecidableEq, Repr

/-- `select(Source, Target)` (R133): the lower of the two fronts, Source on ties; none when both are empty. -/
def select : List Item → List Item → Option (Item × List Item × List Item)
  | s :: S, t :: T =>
    if s.probability ≤ t.probability then some (s, S, t :: T) else some (t, s :: S, T)
  | s :: S, [] => some (s, S, [])
  | [], t :: T => some (t, [], T)
  | [], [] => none

/-- The loop of `build` (R133) with the internal nodes it creates; `fuel` bounds the passes. -/
def buildLoop : Nat → Nat → List Item → List Item → Option (Item × List NodeRecord)
  | 0, _, _, _ => none
  | fuel + 1, next, S, T =>
    match S, T with
    | [], [root] => some (root, [])
    | [], [] => none
    | S, T =>
      match select S T with
      | none => none
      | some (first, S₁, T₁) =>
        match select S₁ T₁ with
        | none => none
        | some (second, S₂, T₂) =>
          let p := first.probability + second.probability
          let made : Item := ⟨next, .node p first.tree second.tree⟩
          (buildLoop fuel (next + 1) S₂ (T₂ ++ [made])).map fun (root, nodes) =>
            (root, ⟨next, first.index, second.index⟩ :: nodes)

/-- The entries of the list wrapped as leaves, at indices 0 .. N−1 (R132 step 1, R137). DESIGN CHOICE
(log entry 22): an entry whose symbol is unset, which no frequency list holds, becomes a leaf of symbol 0. -/
def leafItems (k : Nat) : List SymbolFrequency → List Item
  | [] => []
  | e :: rest => ⟨k, .leaf (e.symbol.getD 0#7) e.probability⟩ :: leafItems (k + 1) rest

/-- `build` with the nodes in creation order (R133, R137); none on fewer than two entries (R134). -/
def buildItems (L : List SymbolFrequency) : Option (Item × List NodeRecord) :=
  buildLoop (L.length + 1) L.length (leafItems 0 L) []

/-- `build` (R133). -/
def build (L : List SymbolFrequency) : Option TreeNode := (buildItems L).map (·.1.tree)

/-- The TR image in the canonical layout (R137): the leaves, the internal nodes, and the root. A leaf
item has a symbol, so the default of `getD` is never taken (log entry 22). DESIGN CHOICE (log entry 23):
for a list of more than MAXLEAF = 128 entries (R13), which no source gives, an index above 255 loses its
high bits, so later commands overwrite earlier entries. -/
def trImage (L : List SymbolFrequency) : Option (List Instr) :=
  (buildItems L).map fun (root, nodes) =>
    (leafItems 0 L).map (fun x => .trLeaf (BitVec.ofNat 8 x.index) (x.tree.data.symbol.getD 0#7)) ++
    nodes.map (fun n => .trNode (BitVec.ofNat 8 n.index) (BitVec.ofNat 8 n.left) (BitVec.ofNat 8 n.right)) ++
    [.setRoot (BitVec.ofNat 8 root.index)]

/-- `CT_LOAD sym, bits` (30_encoding.md R108): CT_NEW, then one CT_BIT per bit. -/
def ctLoad (sym : Symbol) (code : Bits) : List Instr := .ctNew sym :: code.map .ctBit

/-- The CT image's commands for one symbol (R138): its code loaded, or, where it has none, the entry
made absent if an earlier session set it. -/
def ctImageOf (earlier : List Symbol) (ct : CodeTable) (sym : Symbol) : List Instr :=
  match ct.code sym with
  | some code => ctLoad sym code
  | none => if sym ∈ earlier then [.ctClr sym] else []

/-- The CT image (R138), by ascending ordinal; `earlier` are the symbols whose entries an earlier
session set. -/
def ctImage (earlier : List Symbol) (ct : CodeTable) : List Instr := alphabet.flatMap (ctImageOf earlier ct)

/-- The tree of a frequency list, or the error that left none (R125, R134). A list on which `build` has
no result, which is not one of `freqList`'s, is reported as EmptySource (log entry 13). -/
def treeOfList (list : Except CodecError (List SymbolFrequency)) : Except CodecError TreeNode :=
  match list with
  | .error e => .error e
  | .ok L =>
    match build L with
    | some t => .ok t
    | none => .error .emptySource

/-- The tree of a source that has been read (R126 to R134). -/
def treeOf (order : Config.DiscoveryOrder) (source : List Symbol) : Except CodecError TreeNode :=
  treeOfList (freqList order source)

/-- The tree of a source as it is read: a failure before its end aborts the construction (R142). -/
def treeOfInput (order : Config.DiscoveryOrder) (input : List (Option Symbol)) : Except CodecError TreeNode :=
  treeOfList (frequencyTable order input)

end Sys2Proof.Machine
end

