-- ==== Sys2Proof/Machine/Assembler.lean ====
section
/-! DEFINITION. The assembler syntax and the pseudo-commands (30_encoding.md R107, R108), over lists
of characters. No step of the block executes any of it. -/

namespace Sys2Proof.Machine.Asm

/-- A lexical item of one line. -/
inductive Token where
  /-- A mnemonic or a number, not yet told apart. -/
  | bare (cs : List Char)
  /-- A character literal (R107). -/
  | chr (c : Char)
  /-- A quoted string of a pseudo-command (R108). -/
  | str (cs : List Char)
  | comma
  deriving DecidableEq, Repr

/-- Where the scan of a line stands. -/
inductive Scan where
  | between
  /-- Inside a mnemonic or number, its characters so far in reverse. -/
  | bare (acc : List Char)
  /-- After the opening quote of a character literal. -/
  | quote
  /-- After the character of a literal. -/
  | close (c : Char)
  /-- Inside a string, its characters so far in reverse. -/
  | str (acc : List Char)
  deriving DecidableEq, Repr

/-- Split a line into tokens; text after `;` is a comment (R107); none on a malformed line. DESIGN CHOICE
(log entry 17): a `;` inside a character literal or a quoted string is that character and starts no comment. -/
def scan : Scan → List Char → Option (List Token)
  | .between, [] => some []
  | .bare acc, [] => some [.bare acc.reverse]
  | .quote, [] => none
  | .close _, [] => none
  | .str _, [] => none
  | .between, c :: cs =>
    if c = ';' then some []
    else if c = ' ' || c = '\t' then scan .between cs
    else if c = ',' then (scan .between cs).map (.comma :: ·)
    else if c = '\'' then scan .quote cs
    else if c = '"' then scan (.str []) cs
    else scan (.bare [c]) cs
  | .bare acc, c :: cs =>
    if c = ';' then some [.bare acc.reverse]
    else if c = ' ' || c = '\t' then (scan .between cs).map (.bare acc.reverse :: ·)
    else if c = ',' then (scan .between cs).map fun ts => .bare acc.reverse :: .comma :: ts
    else scan (.bare (c :: acc)) cs
  | .quote, c :: cs => scan (.close c) cs
  | .close c, d :: cs => if d = '\'' then (scan .between cs).map (.chr c :: ·) else none
  | .str acc, c :: cs =>
    if c = '"' then (scan .between cs).map (.str acc.reverse :: ·) else scan (.str (c :: acc)) cs

/-- The value of a digit in a base of at most sixteen. -/
def digit (base : Nat) (c : Char) : Option Nat :=
  let n := c.toNat
  let v := if 48 ≤ n && n ≤ 57 then n - 48
    else if 65 ≤ n && n ≤ 70 then n - 55
    else if 97 ≤ n && n ≤ 102 then n - 87
    else 16
  if v < base then some v else none

/-- A number from its digits, most significant first. -/
def digits (base : Nat) : Nat → List Char → Option Nat
  | acc, [] => some acc
  | acc, c :: cs =>
    match digit base c with
    | none => none
    | some d => digits base (base * acc + d) cs

/-- A decimal or `0x` hexadecimal number (R107). -/
def number : List Char → Option Nat
  | [] => none
  | ['0', 'x'] => none
  | '0' :: 'x' :: cs => digits 16 0 cs
  | cs => digits 10 0 cs

/-- The value of an operand: a number, or a character's ordinal (R107). DESIGN CHOICE (log entry 25): the
ordinal of a character outside ASCII is its Unicode code point. -/
def value : Token → Option Nat
  | .bare cs => number cs
  | .chr c => some c.toNat
  | _ => none

/-- An operand that must fit in `n` bits (R92). -/
def operand (n : Nat) (t : Token) : Option (BitVec n) :=
  match value t with
  | none => none
  | some v => if v < 2 ^ n then some (BitVec.ofNat n v) else none

/-- A one-bit operand (R92). -/
def bitOperand (t : Token) : Option Bool := (operand 1 t).map (·.getLsbD 0)

/-- A bit character of a CT_LOAD string (R108). -/
def bitChar (c : Char) : Option Bool :=
  if c = '0' then some false else if c = '1' then some true else none

/-- A character of a string as an ordinal of `n` bits, its Unicode code point outside ASCII (DESIGN
CHOICE, log entry 25); none where it does not fit. -/
def ordinal (n : Nat) (c : Char) : Option (BitVec n) :=
  if c.toNat < 2 ^ n then some (BitVec.ofNat n c.toNat) else none

/-- The code a PK_STR character stands for (R108); outside ASCII its Unicode code point, up to 255 (DESIGN
CHOICE, log entry 25). -/
def charCode (c : Char) : Option Byte :=
  if c = '0' then some Config.chZero else if c = '1' then some Config.chOne else ordinal 8 c

/-- `PK_STR`: one PK_CHAR per character (R108). -/
def pkStr (cs : List Char) : Option (List Instr) := cs.mapM fun c => (charCode c).map .pkChar

/-- `PK_TEXT`: one PK_SYM per character (R108). -/
def pkText (cs : List Char) : Option (List Instr) := cs.mapM fun c => (ordinal 7 c).map .pkSym

/-- `DK_BYTES`: one DK_BYTE per byte, in order (R108). -/
def dkBytes (ts : List Token) : Option (List Instr) := ts.mapM fun t => (operand 8 t).map .dkByte

/-- `RD_STATUS` is `RD_REG 0` (R108). -/
def rdStatus : List Instr := [.rdReg 0#2]

/-- A command or pseudo-command from its name and operands (R91, R107, R108); none if it is not one. -/
def command (name : List Char) (args : List Token) : Option (List Instr) :=
  if name = ['N', 'O', 'P'] then
    match args with
    | [] => some [.nop]
    | _ => none
  else if name = ['R', 'S', 'T'] then
    match args with
    | [] => some [.rst]
    | _ => none
  else if name = ['R', 'D', '_', 'R', 'E', 'G'] then
    match args with
    | [r] => (operand 2 r).map fun r => [.rdReg r]
    | _ => none
  else if name = ['T', 'R', '_', 'L', 'E', 'A', 'F'] then
    match args with
    | [i, .comma, s] => (operand 8 i).bind fun i => (operand 7 s).map fun s => [.trLeaf i s]
    | _ => none
  else if name = ['T', 'R', '_', 'N', 'O', 'D', 'E'] then
    match args with
    | [i, .comma, l, .comma, r] =>
      (operand 8 i).bind fun i => (operand 8 l).bind fun l => (operand 8 r).map fun r => [.trNode i l r]
    | _ => none
  else if name = ['S', 'E', 'T', '_', 'R', 'O', 'O', 'T'] then
    match args with
    | [i] => (operand 8 i).map fun i => [.setRoot i]
    | _ => none
  else if name = ['C', 'T', '_', 'C', 'L', 'R'] then
    match args with
    | [s] => (operand 7 s).map fun s => [.ctClr s]
    | _ => none
  else if name = ['C', 'T', '_', 'N', 'E', 'W'] then
    match args with
    | [s] => (operand 7 s).map fun s => [.ctNew s]
    | _ => none
  else if name = ['C', 'T', '_', 'B', 'I', 'T'] then
    match args with
    | [v] => (bitOperand v).map fun v => [.ctBit v]
    | _ => none
  else if name = ['P', 'K', '_', 'B', 'E', 'G', 'I', 'N'] then
    match args with
    | [] => some [.pkBegin]
    | _ => none
  else if name = ['P', 'K', '_', 'S', 'Y', 'M'] then
    match args with
    | [s] => (operand 7 s).map fun s => [.pkSym s]
    | _ => none
  else if name = ['P', 'K', '_', 'C', 'H', 'A', 'R'] then
    match args with
    | [c] => (operand 8 c).map fun c => [.pkChar c]
    | _ => none
  else if name = ['P', 'K', '_', 'E', 'N', 'D'] then
    match args with
    | [] => some [.pkEnd]
    | _ => none
  else if name = ['D', 'K', '_', 'B', 'E', 'G', 'I', 'N'] then
    match args with
    | [v] => (bitOperand v).map fun v => [.dkBegin v]
    | _ => none
  else if name = ['D', 'K', '_', 'B', 'Y', 'T', 'E'] then
    match args with
    | [b] => (operand 8 b).map fun b => [.dkByte b]
    | _ => none
  else if name = ['D', 'K', '_', 'E', 'N', 'D'] then
    match args with
    | [] => some [.dkEnd]
    | _ => none
  else if name = ['C', 'T', '_', 'L', 'O', 'A', 'D'] then
    match args with
    | [s, .comma, .str cs] => (operand 7 s).bind fun s => (cs.mapM bitChar).map fun bits => ctLoad s bits
    | _ => none
  else if name = ['P', 'K', '_', 'S', 'T', 'R'] then
    match args with
    | [.str cs] => pkStr cs
    | _ => none
  else if name = ['P', 'K', '_', 'T', 'E', 'X', 'T'] then
    match args with
    | [.str cs] => pkText cs
    | _ => none
  else if name = ['D', 'K', '_', 'B', 'Y', 'T', 'E', 'S'] then dkBytes args
  else if name = ['R', 'D', '_', 'S', 'T', 'A', 'T', 'U', 'S'] then
    match args with
    | [] => some rdStatus
    | _ => none
  else none

/-- The commands of one line (R107): none on a line that is not assembly; a blank or comment line has none. -/
def line (cs : List Char) : Option (List Instr) :=
  match scan .between cs with
  | none => none
  | some [] => some []
  | some (.bare name :: args) => command name args
  | some _ => none

/-- The words of an assembly text, line by line. -/
def assemble (lines : List (List Char)) : Option (List Word) :=
  (lines.mapM line).map fun is => is.flatten.map encode

end Sys2Proof.Machine.Asm
end

