-- ==== Sys2Proof/Safety.lean ====
section
/-! DEFINITION. What counts as a good session and as a proper state, in the terms statements use: the
end of a session (10_state.md R30, R256), the invariants of R30, the fault record (R27 to R29, R219),
the ranges of the spec's data (R20, R40 to R43, R15), and the properties of the construction (R140). -/

namespace Sys2Proof.Machine

/-- "A session ended well": MODE = IDLE, DONE = 1, ERR = 0 (R30, R256). -/
abbrev State.endedWell (s : State) : Prop := s.mode = .idle ∧ s.done = true ∧ s.err = 0#8

/-- The index names a valid internal node (R30 f). -/
abbrev State.internalAt (s : State) (i : NodeIndex) : Prop := isInternal (s.readTr i) = true

/-- The invariants (a) to (g) of R30. -/
structure State.SessionInv (s : State) : Prop where
  quiet     : s.mode = .idle ∨ s.mode = .pack → s.err = 0#8
  decoding  : s.mode = .dec → s.err = 0#8 ∨ s.err = Cause.noMark.errBit
  doneWell  : s.done = true → s.mode = .idle ∧ s.err = 0#8
  recorded  : s.fcause = 0#4 ↔ s.err = 0#8
  faulted   : s.mode = .fault → s.err ≠ 0#8
  walking   : s.mode = .dec → s.raw = false → s.internalAt s.cur ∧ s.internalAt s.root
  atHead    : s.mode = .dec → s.phase = .head → s.cur = s.root

/-- The values ERR can hold: no flag, one flag, or E_NOMARK with one of the faults R219 lists after it. -/
abbrev errShape (e : BitVec 8) : Prop :=
  e = 0#8 ∨ (∃ c : Cause, e = c.errBit) ∨
    ∃ c : Cause, (c = .tree ∨ c = .midWalk ∨ c = .seq ∨ c = .illegal) ∧ e = Cause.noMark.errBit ||| c.errBit

/-- The fault record (R27 to R29, R219): ERR has one of the shapes of R219, FCAUSE is 0 exactly when
ERR is (SessionInv), else the code of a fault whose flag is set, E_NOMARK's whenever its flag is set
(nothing can come before it), and FINFO is 0 while FCAUSE is. -/
structure State.RecordInv (s : State) : Prop where
  shape     : errShape s.err
  first     : s.fcause ≠ 0#4 → ∃ c : Cause, s.fcause = c.code ∧ s.err &&& c.errBit = c.errBit
  marked    : s.err &&& Cause.noMark.errBit = Cause.noMark.errBit →
                s.fcause = Cause.noMark.code ∧ s.finfo = 0#8
  noInfo    : s.fcause = 0#4 → s.finfo = 0#8

/-- The ranges of the data (R15, R20, R40 to R43): codes of at most MAXCODE bits, PBUF within PBUF_BITS,
PBUF_BITS in the range R15 allows, and the tables in canonical form, which is the model's choice (log entry 7). -/
structure State.DataInv (s : State) : Prop where
  trForm   : s.tr.wf Config.ntr
  ctForm   : s.ct.wf Config.nct
  codes    : ∀ e ∈ s.ct, e.2.length ≤ Config.maxCode
  buffer   : s.pbuf.length ≤ s.pbufBits
  capacity : 1 ≤ s.pbufBits ∧ s.pbufBits ≤ Config.pbufBitsMax

/-- The commands one after another, stopping where one stops: how a session runs (R11, R75). -/
def execAll : List Instr → State → Result
  | [], s => .next s
  | i :: rest, s =>
    match exec i s with
    | .next t => execAll rest t
    | .fault r => .fault r
    | .refused r => .refused r

/-- TR holds a tree whose root is at an index (R245): a leaf entry for a leaf, and for an internal
node an internal entry whose two children's indices hold the subtrees. -/
def State.holds (s : State) (k : NodeIndex) : TreeNode → Prop
  | .leaf sym _ => s.readTr k = some (.leaf sym)
  | .node _ l r => ∃ i j, s.readTr k = some (.int i j) ∧ s.holds i l ∧ s.holds j r

/-- No code of the table is a prefix of another symbol's (R140 c). -/
def CodeTable.PrefixFree (ct : CodeTable) : Prop :=
  ∀ a b ca cb, ct.code a = some ca → ct.code b = some cb → a ≠ b → ¬ ca <+: cb

/-- Every code has 1 to 127 bits (R140 e). -/
def CodeTable.DepthBound (ct : CodeTable) : Prop :=
  ∀ sym code, ct.code sym = some code → 1 ≤ code.length ∧ code.length ≤ Config.maxCode

/-- The properties (a) to (e) of R140, of the list, the tree and the codes a source gives. In (a) the
synthetic entry of R129, the only one of probability 0, was not discovered. -/
structure ConstructionProperties (order : Config.DiscoveryOrder) (source : List Symbol) (root : TreeNode) :
    Prop where
  /-- (a) The frequency list is sorted ascending by probability. -/
  sorted     : ∀ L, freqList order source = .ok L → L.Pairwise (fun e f => e.probability ≤ f.probability)
  /-- (a) Entries of equal probability keep their discovery order. -/
  stable     : ∀ L p, freqList order source = .ok L → p ≠ 0 →
                 L.filter (fun e => e.probability = p) =
                   ((discovered order source).map (entryOf source)).filter (fun e => e.probability = p)
  /-- (b) One distinct symbol: two leaves, one of them synthetic with probability 0. -/
  twoLeaves  : ∀ sym, (∀ x ∈ source, x = sym) →
                 ∃ other, other ≠ sym ∧ root = .node 1 (.leaf other 0) (.leaf sym 1)
  /-- (c) The codes are prefix-free. -/
  prefixFree : root.codes.PrefixFree
  /-- (d) N distinct symbols, N at least 2: N − 1 internal nodes. -/
  nodes      : 2 ≤ (firstSeen source).length → root.internalCount + 1 = (firstSeen source).length
  /-- (e) The depth bound. -/
  depth      : root.codes.DepthBound

/-- A whole raw decode session (R190). -/
def rawSession (bytes : List Byte) : List Instr := .dkBegin true :: (bytes.map .dkByte ++ [.dkEnd])

/-- A whole symbol decode session (R243). -/
def symbolSession (bytes : List Byte) : List Instr := .dkBegin false :: (bytes.map .dkByte ++ [.dkEnd])

/-- A whole encode session of symbols (R244). -/
def encodeSession (source : List Symbol) : List Instr := .pkBegin :: (source.map .pkSym ++ [.pkEnd])

/-- A whole encode session of bit characters. -/
def charSession (bits : Bits) : List Instr :=
  .pkBegin :: (bits.map (fun v => .pkChar (if v then Config.chOne else Config.chZero)) ++ [.pkEnd])

end Sys2Proof.Machine
end

