-- ==== Sys2Proof/Certificates/Slice0/Obligations.lean ====
section
/-! DEFINITION. The statements for the provers. Each docstring cites the rule of spec/ it formalises. -/

namespace Sys2Proof.Claims

open Sys2Proof.Machine

/-- Every component of the record of R20 has its reset value, and the registers read as R50 lists. -/
structure AtReset (t : State) : Prop where
  mode   : t.mode = .idle
  phase  : t.phase = .head
  raw    : t.raw = false
  done   : t.done = false
  err    : t.err = 0#8
  fcause : t.fcause = 0#4
  finfo  : t.finfo = 0#8
  pbuf   : t.pbuf = []
  cur    : t.cur = 0#8
  root   : t.root = 0#8
  ctsel  : t.ctsel = 0#7
  tr     : ∀ i, t.readTr i = none
  ct     : ∀ sym, t.readCt sym = none
  status : t.readReg 0#2 = 0#32
  plen   : t.readReg 1#2 = 0#32
  walk   : t.readReg 2#2 = 0#32
  ident  : t.readReg 3#2 = 0x48425001#32

/-- What the rules of the sixteen commands say in common: the encoding as the `word` column of R91
writes it and the mask of R93; a word of the same opcode outside the mask is illegal and raises
E_ILLEGAL, without effect in FAULT; in the command's mode it answers a next state as its rule says;
in a mode that does not admit it E_SEQ; in FAULT nothing. -/
structure SessionCommand (i : Instr) (word mask : Word) (home : Mode) (effect : State → State → Prop) :
    Prop where
  encodes : encode i = word
  decodes : decode word = some i
  illegal : ∀ w : Word, w &&& 0xF0000000#32 = word &&& 0xF0000000#32 → w &&& mask ≠ word &&& mask →
              ∀ s : State, deliverWord w s =
                .next (if s.mode = .fault then s else s.raise .illegal (topByte w))
  runs    : ∀ s : State, s.mode = home → ∃ t, exec i s = .next t ∧ effect s t
  seq     : ∀ s : State, s.mode ≠ home → s.mode ≠ .fault → exec i s = .next (s.raise .seq (topByte word))
  ignored : ∀ s : State, s.mode = .fault → exec i s = .next s

/-- The same for a command admitted in every mode. -/
structure SystemCommand (i : Instr) (word mask : Word) (effect : State → State → Prop) : Prop where
  encodes : encode i = word
  decodes : decode word = some i
  illegal : ∀ w : Word, w &&& 0xF0000000#32 = word &&& 0xF0000000#32 → w &&& mask ≠ word &&& mask →
              ∀ s : State, deliverWord w s =
                .next (if s.mode = .fault then s else s.raise .illegal (topByte w))
  runs    : ∀ s : State, ∃ t, exec i s = .next t ∧ effect s t

/-- One TR entry becomes `e`; every other entry and every other component stays. -/
def TrSet (s t : State) (idx : NodeIndex) (e : TrEntry) : Prop :=
  t.readTr idx = some e ∧ (∀ j, j ≠ idx → t.readTr j = s.readTr j) ∧ t = { s with tr := t.tr }

/-- One CT entry becomes `e`; every other entry stays. -/
def CtSet (s t : State) (sym : Symbol) (e : Option Bits) : Prop :=
  t.readCt sym = e ∧ ∀ j, j ≠ sym → t.readCt j = s.readCt j

/-- The step of R188 over the payload bits of one byte, by indices: the items emitted, where the walk
stands, and the entry that stopped it. The last line is not reached from an internal node. -/
def walkIndex (tr : NodeIndex → Option TrEntry) (root : NodeIndex) :
    NodeIndex → Bits → List Byte × NodeIndex × Option NodeIndex
  | cur, [] => ([], cur, none)
  | cur, v :: vs =>
    match tr cur with
    | some (.int left right) =>
      match tr (if v then right else left) with
      | none => ([], cur, some (if v then right else left))
      | some (.leaf sym) =>
        let rest := walkIndex tr root root vs
        (BitVec.setWidth 8 sym :: rest.1, rest.2)
      | some (.int _ _) => walkIndex tr root (if v then right else left) vs
    | _ => ([], cur, none)

/-- The payload bits of a byte (R181, R186): for the first byte of a stream those below its highest 1. -/
def payloadOf (phase : Phase) (y : Byte) : Bits :=
  match phase with
  | .body => bitsOfByte y
  | .head => (bitsOfByte y).drop (8 - y.toNat.log2)

/-- DK_BYTE's effect (R186), in a state where a symbol session's walk stands on an internal node
(R30 f). -/
def DkByteEffect (byte : Byte) (s t : State) : Prop :=
  if s.phase = .head ∧ byte = 0#8 then t = { s with phase := .body }.raise .noMark 0#8
  else if s.raw then
    t = { s with
      phase := .body
      decOut := s.decOut ++ (payloadOf s.phase byte).map fun v => if v then 0x81#8 else 0x80#8 }
  else s.internalAt s.cur → s.internalAt s.root →
    match walkIndex s.readTr s.root s.cur (payloadOf s.phase byte) with
    | (out, cur, none) => t = { s with phase := .body, decOut := s.decOut ++ out, cur := cur }
    | (out, cur, some bad) =>
      t = { s with phase := .body, decOut := s.decOut ++ out, cur := cur }.raise .tree bad

/-- MODE after a step that raises no fault, outside FAULT: the rows of R98; none is `-`, not admitted. -/
def modeAfter (i : Instr) (m : Mode) : Option Mode :=
  match i with
  | .nop => some m
  | .rst => some .idle
  | .rdReg _ => some m
  | .trLeaf _ _ => if m = .idle then some .idle else none
  | .trNode _ _ _ => if m = .idle then some .idle else none
  | .setRoot _ => if m = .idle then some .idle else none
  | .ctClr _ => if m = .idle then some .idle else none
  | .ctNew _ => if m = .idle then some .idle else none
  | .ctBit _ => if m = .idle then some .idle else none
  | .pkBegin => if m = .idle then some .pack else none
  | .pkSym _ => if m = .pack then some .pack else none
  | .pkChar _ => if m = .pack then some .pack else none
  | .pkEnd => if m = .pack then some .idle else none
  | .dkBegin _ => if m = .idle then some .dec else none
  | .dkByte _ => if m = .dec then some .dec else none
  | .dkEnd => if m = .dec then some .idle else none

/-- The stopping faults a command's own rule lists, each with the state it is raised on (R156, R166,
R168, R185, R186 with R188, R189), and DK_END's end in FAULT with a flag set (R189). -/
def EndsInFault : Instr → State → State → Prop
  | .ctBit _, s, t =>
    (s.readCt s.ctsel = none ∧ t = s.raise .seq 0x80#8) ∨
    (∃ code, s.readCt s.ctsel = some code ∧ code.length = 127 ∧ t = s.raise .overflow (s.ctsel.setWidth 8))
  | .pkSym sym, s, t =>
    (s.readCt sym = none ∧ t = s.raise .missing (sym.setWidth 8)) ∨
    (∃ code, s.readCt sym = some code ∧ s.pbuf.length + code.length > s.pbufBits ∧
      t = s.raise .overflow (sym.setWidth 8))
  | .pkChar ch, s, t =>
    ((ch ≠ 0x30#8 ∧ ch ≠ 0x31#8) ∧ t = s.raise .bitChar ch) ∨
    ((ch = 0x30#8 ∨ ch = 0x31#8) ∧ s.pbuf.length + 1 > s.pbufBits ∧ t = s.raise .overflow ch)
  | .dkBegin raw, s, t => raw = false ∧ ¬ s.internalAt s.root ∧ t = s.raise .tree s.root
  | .dkByte _, s, t =>
    s.raw = false ∧ ∃ out cur bad, ¬ s.internalAt bad ∧
      t = { s with phase := .body, decOut := s.decOut ++ out, cur := cur }.raise .tree bad
  | .dkEnd, s, t =>
    (s.raw = false ∧ s.cur ≠ s.root ∧
      t = (if s.phase = .head then s.raise .noMark 0#8 else s).raise .midWalk s.cur) ∨
    (s.phase = .head ∧ t = { s.raise .noMark 0#8 with mode := .fault }) ∨
    (s.err ≠ 0#8 ∧ t = { s with mode := .fault })
  | _, _, _ => False

/-- The fault record of `t` is that of `u`. -/
def SameRecord (t u : State) : Prop := t.err = u.err ∧ t.fcause = u.fcause ∧ t.finfo = u.finfo

/-- The next input is a reset: RST's word or the hardware reset. -/
def isResetInput : HostInput → Bool
  | .reset => true
  | .word w => w == 0x10000000#32

/-- The host's next input is not a reset. -/
def NoReset (s : State) : Prop := ∀ x rest, s.cmdIn = x :: rest → isResetInput x = false

/-- The next input is a word that decodes to the command. -/
def NextCommand (s : State) (i : Instr) : Prop := ∃ w rest, s.cmdIn = .word w :: rest ∧ decode w = some i

/-- The number a bit-string is, first bit most significant (R162 d). -/
def bitsValue (B : Bits) : Nat := B.foldl (fun n v => 2 * n + v.toNat) 0

/-- The number a byte sequence is, big-endian (R162 d). -/
def bytesValue (ys : List Byte) : Nat := ys.foldl (fun n y => 256 * n + y.toNat) 0

/-- A state of a run from reset: some inputs and some capacity, some number of steps. -/
def Reachable (t : State) : Prop :=
  ∃ (inputs : List HostInput) (capacity k : Nat), 1 ≤ capacity ∧ capacity ≤ Config.pbufBitsMax ∧
    core.run k { State.reset with cmdIn := inputs, pbufBits := capacity } = .next t

end Sys2Proof.Claims

open Sys2Proof Sys2Proof.Machine Sys2Proof.Claims

/-- R50: `State.reset`, the state after RST and the state after a hardware reset have every component
at the reset value. -/
def Obligations.ResetLeavesResetState : Prop :=
  AtReset State.reset ∧
  (∀ s : State, ∃ t, exec .rst s = .next t ∧ AtReset t) ∧
  (∀ (s : State) (rest : List HostInput), s.cmdIn = .reset :: rest → ∃ t, step s = .next t ∧ AtReset t)

/-- R52: a run starts with three empty traces, and a reset in the middle of a run leaves them as they are. -/
def Obligations.ResetKeepsOutputTraces : Prop :=
  State.reset.byteOut = [] ∧ State.reset.decOut = [] ∧ State.reset.rspOut = [] ∧
  (∀ s : State, ∃ t, exec .rst s = .next t ∧
    t.byteOut = s.byteOut ∧ t.decOut = s.decOut ∧ t.rspOut = s.rspOut) ∧
  (∀ (s : State) (rest : List HostInput), s.cmdIn = .reset :: rest → ∃ t, step s = .next t ∧
    t.byteOut = s.byteOut ∧ t.decOut = s.decOut ∧ t.rspOut = s.rspOut)

/-- R200: NOP does nothing in every mode. -/
def Obligations.NopRule : Prop :=
  SystemCommand .nop 0x00000000#32 0xFFFFFFFF#32 fun s t => t = s

/-- R201: RST in every mode takes every component to its reset value; output items stay, and none is emitted. -/
def Obligations.RstRule : Prop :=
  SystemCommand .rst 0x10000000#32 0xFFFFFFFF#32 fun s t =>
    AtReset t ∧ t.byteOut = s.byteOut ∧ t.decOut = s.decOut ∧ t.rspOut = s.rspOut

/-- R202: RD_REG emits the register's value and changes no state, in every mode. -/
def Obligations.RdRegRule : Prop :=
  ∀ r : BitVec 2, SystemCommand (.rdReg r) (0x20000000#32 ||| r.setWidth 32) 0xFFFFFFFC#32 fun s t =>
    t = { s with rspOut := s.rspOut ++
      [if r = 0#2 then s.status else if r = 1#2 then s.plen else if r = 2#2 then s.walkReg
       else 0x48425001#32] }

/-- R35, R36, R37, R38: the four registers as views of the state; PLEN is exact when PBUF is within a
capacity R15 allows. -/
def Obligations.RegisterViews : Prop :=
  ∀ s : State,
    s.readReg 0#2 = (s.mode.code.setWidth 32 ||| s.phase.code.setWidth 32 <<< 2 |||
      (BitVec.ofBool s.raw).setWidth 32 <<< 3 ||| (BitVec.ofBool s.done).setWidth 32 <<< 4 |||
      s.err.setWidth 32 <<< 8 ||| s.fcause.setWidth 32 <<< 16 ||| s.finfo.setWidth 32 <<< 24) ∧
    (s.DataInv → (s.readReg 1#2).toNat = s.pbuf.length) ∧
    s.readReg 2#2 = (s.cur.setWidth 32 ||| s.root.setWidth 32 <<< 8 ||| s.ctsel.setWidth 32 <<< 16) ∧
    s.readReg 3#2 = 0x48425001#32 ∧
    [Mode.idle, .pack, .dec, .fault].map Mode.code = [0#2, 1#2, 2#2, 3#2] ∧
    [Phase.head, .body].map Phase.code = [0#1, 1#1]

/-- R151: TR_LEAF writes a leaf. -/
def Obligations.TrLeafRule : Prop :=
  ∀ (idx : NodeIndex) (sym : Symbol), SessionCommand (.trLeaf idx sym)
    (0x30000000#32 ||| idx.setWidth 32 <<< 20 ||| sym.setWidth 32) 0xF00FFF80#32 .idle fun s t =>
      TrSet s t idx (.leaf sym)

/-- R152: TR_NODE writes an internal node; the children are not checked. -/
def Obligations.TrNodeRule : Prop :=
  ∀ idx left right : NodeIndex, SessionCommand (.trNode idx left right)
    (0x40000000#32 ||| idx.setWidth 32 <<< 20 ||| left.setWidth 32 <<< 8 ||| right.setWidth 32)
    0xF00F0000#32 .idle fun s t => TrSet s t idx (.int left right)

/-- R153: SET_ROOT writes ROOT and nothing else; the entry named is not looked at. -/
def Obligations.SetRootRule : Prop :=
  ∀ idx : NodeIndex, SessionCommand (.setRoot idx) (0x50000000#32 ||| idx.setWidth 32) 0xFFFFFF00#32
    .idle fun s t => t = { s with root := idx }

/-- R154: CT_CLR makes the entry absent; CTSEL is not changed. -/
def Obligations.CtClrRule : Prop :=
  ∀ sym : Symbol, SessionCommand (.ctClr sym) (0x60000000#32 ||| sym.setWidth 32) 0xFFFFFF80#32 .idle
    fun s t => CtSet s t sym none ∧ t = { s with ct := t.ct }

/-- R155: CT_NEW makes the entry the empty code, present, and selects it. -/
def Obligations.CtNewRule : Prop :=
  ∀ sym : Symbol, SessionCommand (.ctNew sym) (0x70000000#32 ||| sym.setWidth 32) 0xFFFFFF80#32 .idle
    fun s t => CtSet s t sym (some []) ∧ t = { s with ct := t.ct, ctsel := sym }

/-- R156: CT_BIT appends a bit to the selected code; E_SEQ on an absent entry, E_OVERFLOW on one of 127 bits. -/
def Obligations.CtBitRule : Prop :=
  ∀ v : Bool, SessionCommand (.ctBit v) (0x80000000#32 ||| (BitVec.ofBool v).setWidth 32) 0xFFFFFFFE#32
    .idle fun s t =>
      match s.readCt s.ctsel with
      | none => t = s.raise .seq 0x80#8
      | some code =>
        if code.length = 127 then t = s.raise .overflow (s.ctsel.setWidth 8)
        else CtSet s t s.ctsel (some (code ++ [v])) ∧ t = { s with ct := t.ct }

/-- R165: PK_BEGIN starts an encode session with an empty bit-string. -/
def Obligations.PkBeginRule : Prop :=
  SessionCommand .pkBegin 0x90000000#32 0xFFFFFFFF#32 .idle fun s t =>
    t = { s with pbuf := [], done := false, mode := .pack }

/-- R166: PK_SYM appends the symbol's code; E_MISSING, then E_OVERFLOW, PBUF unchanged on both. -/
def Obligations.PkSymRule : Prop :=
  ∀ sym : Symbol, SessionCommand (.pkSym sym) (0xA0000000#32 ||| sym.setWidth 32) 0xFFFFFF80#32 .pack
    fun s t =>
      match s.readCt sym with
      | none => t = s.raise .missing (sym.setWidth 8)
      | some code =>
        if s.pbuf.length + code.length > s.pbufBits then t = s.raise .overflow (sym.setWidth 8)
        else t = { s with pbuf := s.pbuf ++ code }

/-- R168: PK_CHAR appends the bit of a character; E_BITCHAR for the 254 other values, then E_OVERFLOW. -/
def Obligations.PkCharRule : Prop :=
  ∀ ch : Byte, SessionCommand (.pkChar ch) (0xB0000000#32 ||| ch.setWidth 32) 0xFFFFFF00#32 .pack
    fun s t =>
      if ch ≠ 0x30#8 ∧ ch ≠ 0x31#8 then t = s.raise .bitChar ch
      else if s.pbuf.length + 1 > s.pbufBits then t = s.raise .overflow ch
      else t = { s with pbuf := s.pbuf ++ [ch == 0x31#8] }

/-- R169: PK_END emits the packed bytes of PBUF and ends the session well; PBUF keeps its value. -/
def Obligations.PkEndRule : Prop :=
  SessionCommand .pkEnd 0xC0000000#32 0xFFFFFFFF#32 .pack fun s t =>
    t = { s with byteOut := s.byteOut ++ pack s.pbuf, done := true, mode := .idle }

/-- R185: DK_BEGIN starts a decode session; E_TREE when a symbol session's root is no valid internal node. -/
def Obligations.DkBeginRule : Prop :=
  ∀ raw : Bool, SessionCommand (.dkBegin raw) (0xD0000000#32 ||| (BitVec.ofBool raw).setWidth 32)
    0xFFFFFFFE#32 .idle fun s t =>
      if raw = false ∧ ¬ ∃ left right, s.readTr s.root = some (.int left right) then
        t = s.raise .tree s.root
      else t = { s with raw := raw, phase := .head, cur := s.root, done := false, mode := .dec }

/-- R186: DK_BYTE takes the next byte of the stream. -/
def Obligations.DkByteRule : Prop :=
  ∀ byte : Byte, SessionCommand (.dkByte byte) (0xE0000000#32 ||| byte.setWidth 32) 0xFFFFFF00#32 .dec
    (DkByteEffect byte)

/-- R188: one payload bit moves the walk one edge, to a leaf, an internal node, or an invalid entry. -/
def Obligations.WalkStepRule : Prop :=
  ∀ (s : State) (v : Bool) (left right : NodeIndex), s.readTr s.cur = some (.int left right) →
    (s.readTr (if v then right else left) = none →
      s.walk v = .error (s.raise .tree (if v then right else left))) ∧
    (∀ sym, s.readTr (if v then right else left) = some (.leaf sym) →
      s.walk v = .ok { s with decOut := s.decOut ++ [sym.setWidth 8], cur := s.root }) ∧
    (∀ l r, s.readTr (if v then right else left) = some (.int l r) →
      s.walk v = .ok { s with cur := if v then right else left })

/-- R189: DK_END makes the end-of-stream checks, in the states of R30 (g): PHASE = HEAD implies
CUR = ROOT (what the model does in the others is log entry 15). -/
def Obligations.DkEndRule : Prop :=
  SessionCommand .dkEnd 0xF0000000#32 0xFFFFFFFF#32 .dec fun s t =>
    (s.phase = .head → s.cur = s.root) →
    if s.phase = .head then t = { s.raise .noMark 0#8 with mode := .fault }
    else if s.raw = false ∧ s.cur ≠ s.root then t = s.raise .midWalk s.cur
    else if s.err ≠ 0#8 then t = { s with mode := .fault }
    else t = { s with mode := .idle, done := true }

/-- R216: fault entry does exactly what the rule lists, bit by bit of ERR, and changes nothing else. -/
def Obligations.FaultEntryRule : Prop :=
  [Cause.bitChar, .missing, .noMark, .midWalk, .tree, .seq, .illegal, .overflow].map Cause.errIndex =
    [0, 1, 2, 3, 4, 5, 6, 7] ∧
  ∀ (s : State) (c : Cause) (info : Byte),
    (∀ k, k < 8 → (s.raise c info).err.getLsbD k = (s.err.getLsbD k || k == c.errIndex)) ∧
    (s.fcause = 0#4 → (s.raise c info).fcause.toNat = c.errIndex + 1 ∧ (s.raise c info).finfo = info) ∧
    (s.fcause ≠ 0#4 → (s.raise c info).fcause = s.fcause ∧ (s.raise c info).finfo = s.finfo) ∧
    (s.raise c info).done = false ∧
    (c ≠ .noMark → (s.raise c info).mode = .fault) ∧ (s.raise .noMark info).mode = s.mode ∧
    s.raise c info = { s with
      err := (s.raise c info).err, fcause := (s.raise c info).fcause, finfo := (s.raise c info).finfo
      done := (s.raise c info).done, mode := (s.raise c info).mode }

/-- R99: in FAULT only RST and RD_REG have an effect, and only RST or a hardware reset leaves FAULT. -/
def Obligations.FaultModeFilter : Prop :=
  (∀ s : State, s.mode = .fault →
    (∃ t, deliverWord 0x10000000#32 s = .next t ∧ AtReset t) ∧
    (∀ r : BitVec 2, deliverWord (0x20000000#32 ||| r.setWidth 32) s =
      .next { s with rspOut := s.rspOut ++ [s.readReg r] }) ∧
    (∀ w : Word, w ≠ 0x10000000#32 → w &&& 0xFFFFFFFC#32 ≠ 0x20000000#32 → deliverWord w s = .next s)) ∧
  (∀ s t : State, s.mode = .fault → NoReset s → step s = .next t → t.mode = .fault)

/-- R96: a word that matches no row of R93 is no command; outside FAULT it raises E_ILLEGAL with
`w[31:24]` and has no other effect, in FAULT it has none. -/
def Obligations.IllegalWordRule : Prop :=
  ∀ w : Word, wellFormedWord w = false → decode w = none ∧
    (∀ s : State, s.mode ≠ .fault → deliverWord w s = .next (s.raise .illegal (w.extractLsb' 24 8))) ∧
    (∀ s : State, s.mode = .fault → deliverWord w s = .next s)

/-- R98: which command is admitted in which MODE, and the MODE after a step: the table's, unless the
step ended in a stopping fault that the command's own rule lists, raised on the state it ran in. The
FAULT column too. (DK_END with two faults and a CUR that is no internal node are log entries 15 and 6,
in states R30 rules out.) -/
def Obligations.ModeTransitionTable : Prop :=
  ∀ (i : Instr) (s : State), ∃ t, exec i s = .next t ∧
    (s.mode = .fault → match i with
      | .nop => t = s
      | .rst => t.mode = .idle
      | .rdReg _ => t.mode = .fault
      | _ => t = s) ∧
    (s.mode ≠ .fault → match modeAfter i s.mode with
      | none => t = s.raise .seq ((encode i).extractLsb' 24 8)
      | some m => t.mode = m ∨ EndsInFault i s t)

/-- R94: decoding is total and agrees with R93's table; decode after encode and encode after decode
are the identity. -/
def Obligations.DecodeEncodeAgree : Prop :=
  (∀ i : Instr, decode (encode i) = some i) ∧
  (∀ (w : Word) (i : Instr), decode w = some i → encode i = w ∧ i.row.accepts w = true) ∧
  (∀ w : Word, decode w = none ↔ wellFormedWord w = false)

/-- R93: the sixteen rows are disjoint, and a word that matches a row decodes to a command of that row. -/
def Obligations.WordRowsDisjoint : Prop :=
  ∀ (w : Word) (r : WordRow), r ∈ wordRows → r.accepts w = true →
    (∃ i, decode w = some i ∧ i.row = r) ∧ ∀ r' ∈ wordRows, r'.accepts w = true → r' = r

/-- R91: words of the spec's encoding table decode to the commands they stand for. -/
def Obligations.TableWordsDecode : Prop :=
  decode 0x00000000#32 = some .nop ∧ decode 0x10000000#32 = some .rst ∧
  decode 0x20000003#32 = some (.rdReg 3#2) ∧ decode 0x3FF0007F#32 = some (.trLeaf 255#8 127#7) ∧
  decode 0x40200001#32 = some (.trNode 2#8 0#8 1#8) ∧ decode 0x70000061#32 = some (.ctNew 97#7) ∧
  decode 0xB0000031#32 = some (.pkChar 0x31#8) ∧ decode 0xD0000001#32 = some (.dkBegin true) ∧
  decode 0xE00000B7#32 = some (.dkByte 0xB7#8) ∧ decode 0xA0000080#32 = none ∧
  decode 0x30010000#32 = none ∧ decode 0x4FFFFFFF#32 = none

/-- R70, R90: a step with a command word in front is that command's own rule on the state without the word. -/
def Obligations.StepRunsTheCommand : Prop :=
  ∀ (s : State) (w : Word) (rest : List HostInput) (i : Instr),
    s.cmdIn = .word w :: rest → decode w = some i → step s = exec i { s with cmdIn := rest }

/-- The model's choice (log entry 1) for R70's "Nothing else changes the state between two commands":
with nothing sent, a step leaves the state. -/
def Obligations.StepWaitsForInput : Prop :=
  ∀ s : State, s.cmdIn = [] → step s = .next s

/-- R258: every step of every state answers a next state, so the block cannot hang. That it takes the
oldest input if there is one and keeps the rest of the queue (R62), and that it keeps PBUF_BITS (R46), a
reset included, is said of the model's own fields: log entries 1, 2 and 11. -/
def Obligations.StepAlwaysCompletes : Prop :=
  ∀ s : State, ∃ t, step s = .next t ∧ t.cmdIn = s.cmdIn.tail ∧ t.pbufBits = s.pbufBits

/-- R30: the invariants (a) to (g) are kept by every step, from every state that meets them, and hold
of every state a run reaches from reset. -/
def Obligations.SessionInvariantKept : Prop :=
  (∀ s t : State, s.SessionInv → step s = .next t → t.SessionInv) ∧ ∀ t : State, Reachable t → t.SessionInv

/-- R30: the invariants hold at reset. -/
def Obligations.SessionInvariantAtReset : Prop := State.reset.SessionInv

/-- R27, R28, R29, R219: the fault record keeps its form under every step, from every state that meets
the session invariants. -/
def Obligations.FaultRecordInvariantKept : Prop :=
  (∀ s t : State, s.SessionInv → s.RecordInv → step s = .next t → t.RecordInv) ∧
  ∀ t : State, Reachable t → t.RecordInv

/-- The fault record has its form at reset. -/
def Obligations.FaultRecordInvariantAtReset : Prop := State.reset.RecordInv

/-- R20, R43, R15: every step keeps codes within 127 bits and PBUF within its capacity, a field of the
model's own (log entry 2). That the tables are kept in canonical form, indices rising, is the model's
choice of how they are written down (log entry 7). -/
def Obligations.DataInvariantKept : Prop :=
  (∀ s t : State, s.DataInv → step s = .next t → t.DataInv) ∧ ∀ t : State, Reachable t → t.DataInv

/-- The data are in range at reset, whatever capacity R15 allows (the capacity `State.reset` itself
carries is the model's choice, log entry 2, and so is the canonical form of the tables, log entry 7). -/
def Obligations.DataInvariantAtReset : Prop :=
  ∀ capacity : Nat, 1 ≤ capacity → capacity ≤ 4294967295 →
    { State.reset with pbufBits := capacity }.DataInv

/-- R27, R28, R29: no step but a reset clears a fault flag, and the first fault's record never changes
until a reset. -/
def Obligations.FaultRecordSticky : Prop :=
  ∀ s t : State, NoReset s → step s = .next t →
    (∀ k, s.err.getLsbD k = true → t.err.getLsbD k = true) ∧
    (s.fcause ≠ 0#4 → t.fcause = s.fcause ∧ t.finfo = s.finfo)

/-- R45: items are only appended; BYTE_OUT by PK_END only, DEC_OUT by DK_BYTE only, RSP_OUT by RD_REG
only, and a reset takes none back. -/
def Obligations.OutputsAppendOnly : Prop :=
  ∀ s t : State, step s = .next t → ∃ (bs ds : List Byte) (rs : List Word),
    t.byteOut = s.byteOut ++ bs ∧ t.decOut = s.decOut ++ ds ∧ t.rspOut = s.rspOut ++ rs ∧
    (bs ≠ [] → NextCommand s .pkEnd) ∧ (ds ≠ [] → ∃ b, NextCommand s (.dkByte b)) ∧
    (rs ≠ [] → ∃ r, NextCommand s (.rdReg r))

/-- R104, R186, R258: a step appends at most eight items to DEC_OUT; in a raw session each is 0x80 or
0x81, in a symbol session each has bit 7 clear. -/
def Obligations.DecodedItemsInRange : Prop :=
  ∀ s t : State, step s = .next t → ∃ ds : List Byte, t.decOut = s.decOut ++ ds ∧ ds.length ≤ 8 ∧
    (s.raw = true → ∀ d ∈ ds, d = 0x80#8 ∨ d = 0x81#8) ∧
    (s.raw = false → ∀ d ∈ ds, d.getLsbD 7 = false)

/-- 20_memory.md, R75 (b): tables and root cannot change outside IDLE but by a reset. -/
def Obligations.TablesFixedInSession : Prop :=
  ∀ s t : State, s.mode ≠ .idle → NoReset s → step s = .next t →
    t.tr = s.tr ∧ t.ct = s.ct ∧ t.root = s.root ∧ t.ctsel = s.ctsel

/-- The write column of R39, as a frame of all sixteen commands, on every path: a component changes
only under a command whose row lists it, or is one of ERR, FCAUSE, FINFO, DONE and MODE, written by a
fault entry on the state the command ran in (by both of DK_END's in the states of log entry 15). That
every command, RST included, keeps `pbufBits` and `cmdIn` is said of the model's own fields: log entries
1, 2 and 11. -/
def Obligations.WritesOnlyWhatIsListed : Prop :=
  ∀ (i : Instr) (s t : State), exec i s = .next t →
    (t.tr ≠ s.tr → i = .rst ∨ (∃ a b, i = .trLeaf a b) ∨ ∃ a b c, i = .trNode a b c) ∧
    (t.root ≠ s.root → i = .rst ∨ ∃ a, i = .setRoot a) ∧
    (t.ct ≠ s.ct → i = .rst ∨ (∃ a, i = .ctClr a) ∨ (∃ a, i = .ctNew a) ∨ ∃ v, i = .ctBit v) ∧
    (t.ctsel ≠ s.ctsel → i = .rst ∨ ∃ a, i = .ctNew a) ∧
    (t.pbuf ≠ s.pbuf → i = .rst ∨ i = .pkBegin ∨ (∃ a, i = .pkSym a) ∨ ∃ a, i = .pkChar a) ∧
    (t.raw ≠ s.raw → i = .rst ∨ ∃ v, i = .dkBegin v) ∧
    (t.phase ≠ s.phase ∨ t.cur ≠ s.cur → i = .rst ∨ (∃ v, i = .dkBegin v) ∨ ∃ b, i = .dkByte b) ∧
    (t.mode ≠ s.mode ∨ t.done ≠ s.done →
      (i = .rst ∨ i = .pkBegin ∨ i = .pkEnd ∨ (∃ v, i = .dkBegin v) ∨ i = .dkEnd) ∨
      ∃ c info, t.mode = (s.raise c info).mode ∧ t.done = false ∧ SameRecord t (s.raise c info)) ∧
    (¬ SameRecord t s → i = .rst ∨ (∃ c info, SameRecord t (s.raise c info)) ∨
      (i = .dkEnd ∧ SameRecord t ((s.raise .noMark 0#8).raise .midWalk s.cur))) ∧
    (t.byteOut ≠ s.byteOut → i = .pkEnd) ∧ (t.decOut ≠ s.decOut → ∃ b, i = .dkByte b) ∧
    (t.rspOut ≠ s.rspOut → ∃ r, i = .rdReg r) ∧ t.pbufBits = s.pbufBits ∧ t.cmdIn = s.cmdIn ∧
    (i = .nop ∨ (∃ r, i = .rdReg r) →
      t.mode = s.mode ∧ t.done = s.done ∧ t.err = s.err ∧ t.fcause = s.fcause ∧ t.finfo = s.finfo)

/-- R218 (a): after a fault no step but a reset brings the state to "a session ended well". -/
def Obligations.NoGoodEndAfterFault : Prop :=
  ∀ s t : State, s.err ≠ 0#8 → NoReset s → step s = .next t → t.err ≠ 0#8 ∧ ¬ t.endedWell

/-- R160, R161: the packed bytes, read most significant bit first, are the marker of 1 to 8 bits and
then the bit-string, a whole number of bytes. -/
def Obligations.PackLayout : Prop :=
  ∀ B : Bits,
    1 ≤ padding B.length ∧ padding B.length ≤ 8 ∧ (padding B.length + B.length) % 8 = 0 ∧
    bitsOfBytes (pack B) = List.replicate (padding B.length - 1) false ++ [true] ++ B ∧
    8 * (pack B).length = padding B.length + B.length

/-- R162: number of bytes, first byte, injectivity, value, and the empty bit-string. -/
def Obligations.PackConsequences : Prop :=
  (∀ B : Bits, (pack B).length = B.length / 8 + 1) ∧
  (∀ B : Bits, ∃ y rest, pack B = y :: rest ∧ y ≠ 0#8 ∧ 7 - y.toNat.log2 = 7 - B.length % 8) ∧
  (∀ B C : Bits, pack B = pack C → B = C) ∧
  (∀ B : Bits, bytesValue (pack B) = 2 ^ B.length + bitsValue B) ∧
  pack [] = [0x01#8]

/-- R181, R182, R183: where the marker ends in the first byte, the first byte without one, and no bytes. -/
def Obligations.UnpackRule : Prop :=
  (∀ (y : Byte) (rest : List Byte), y ≠ 0#8 →
    unpack (y :: rest) = ((bitsOfByte y).drop (8 - y.toNat.log2) ++ bitsOfBytes rest, true)) ∧
  (∀ rest : List Byte, unpack (0#8 :: rest) = (bitsOfBytes rest, false)) ∧
  unpack [] = ([], false)

/-- R191 (a), (c): unpacking what was packed gives the bit-string back, and the marker is found. -/
def Obligations.UnpackAfterPack : Prop :=
  ∀ B : Bits, unpack (pack B) = (B, true)

/-- R192: packing what was unpacked gives the bytes back when the first byte is not 0x00, and first
bytes 0x00 and 0x01 give the same payload, only the second with a marker. -/
def Obligations.PackAfterUnpack : Prop :=
  (∀ (y : Byte) (rest : List Byte), y ≠ 0#8 → pack (unpack (y :: rest)).1 = y :: rest) ∧
  ∀ rest : List Byte, (unpack (0x00#8 :: rest)).1 = (unpack (0x01#8 :: rest)).1 ∧
    (unpack (0x00#8 :: rest)).2 = false ∧ (unpack (0x01#8 :: rest)).2 = true

/-- R164 through the block: an encode session emits exactly `encode` of its symbols and ends well, or,
when a code is missing or PBUF cannot hold the bits, emits nothing and ends in FAULT. -/
def Obligations.EncodeSessionComputesEncode : Prop :=
  ∀ (s : State) (source : List Symbol), s.mode = .idle → s.err = 0#8 →
    ∃ t, execAll (encodeSession source) s = .next t ∧
      match concatCodes s.ct source with
      | .ok B =>
        if B.length ≤ s.pbufBits then
          encodeText source s.ct = .ok (pack B) ∧ t.byteOut = s.byteOut ++ pack B ∧ t.pbuf = B ∧ t.endedWell
        else t.byteOut = s.byteOut ∧ t.mode = .fault ∧ t.err ≠ 0#8
      | .error _ => t.byteOut = s.byteOut ∧ t.mode = .fault ∧ t.err ≠ 0#8

/-- R190: a raw session emits exactly `unpack` of its bytes, and ERR bit 2 at the end is its second
component. -/
def Obligations.RawSessionComputesUnpack : Prop :=
  ∀ (s : State) (bytes : List Byte), s.mode = .idle → s.err = 0#8 →
    ∃ t, execAll (rawSession bytes) s = .next t ∧
      t.decOut = s.decOut ++ (unpack bytes).1.map (fun v => if v then 0x81#8 else 0x80#8) ∧
      (if (unpack bytes).2 then t.endedWell else t.mode = .fault ∧ t.err = 0x04#8) ∧
      t.tr = s.tr ∧ t.ct = s.ct ∧ t.byteOut = s.byteOut ∧ t.rspOut = s.rspOut

/-- R184 through the block: with TR holding a tree at ROOT, a symbol session emits exactly the symbols
of the walk and ends well when `decode` succeeds, and in FAULT with the flag of the error when it does not. -/
def Obligations.SymbolSessionComputesDecode : Prop :=
  ∀ (s : State) (bytes : List Byte) (root : TreeNode), s.mode = .idle → s.err = 0#8 →
    root.isNode = true → s.holds s.root root →
    ∃ t, execAll (symbolSession bytes) s = .next t ∧
      t.decOut = s.decOut ++ (walkTree root root (unpack bytes).1).1.map (fun sym => sym.setWidth 8) ∧
      match decodeBytes bytes root with
      | .ok out => t.decOut = s.decOut ++ out.map (fun sym => sym.setWidth 8) ∧ t.endedWell
      | .error .endedMidDescent => t.mode = .fault ∧ t.err.getLsbD 3 = true
      | .error .noMarker => t.mode = .fault ∧ t.err = 0x04#8
      | .error _ => False

/-- R191 in terms of the block: a raw session fed the BYTE_OUT items of an encode session of bit
characters emits that session's PBUF, bit for bit, and ends well. -/
def Obligations.RawRoundTripThroughBlock : Prop :=
  ∀ (s : State) (B : Bits), s.mode = .idle → s.err = 0#8 → B.length ≤ s.pbufBits →
    ∃ t u bytes, execAll (charSession B) s = .next t ∧ t.byteOut = s.byteOut ++ bytes ∧ t.pbuf = B ∧
      t.endedWell ∧ execAll (rawSession bytes) t = .next u ∧
      u.decOut = s.decOut ++ B.map (fun v => if v then 0x81#8 else 0x80#8) ∧ u.endedWell

/-- R126, R127: the list before any synthetic entry is sorted ascending by probability, symbols of
equal probability in discovery order, one entry per distinct symbol with its count over the total. -/
def Obligations.FrequencyListSortedStable : Prop :=
  ∀ (order : Config.DiscoveryOrder) (source : List Symbol),
    (sortedEntries order source).Pairwise (fun e f => e.probability ≤ f.probability) ∧
    (∀ p : Rat, (sortedEntries order source).filter (fun e => e.probability = p) =
      ((discovered order source).map (entryOf source)).filter (fun e => e.probability = p)) ∧
    (discovered order source).Nodup ∧ ∀ sym, sym ∈ discovered order source ↔ sym ∈ source

/-- R129, R130, R142: one distinct symbol gets a synthetic entry of probability 0 in front; no symbol is
the error EmptySource; two or more get no synthetic entry; a source that fails before its end gives no
list and no tree, and one that does not is counted to its end. -/
def Obligations.DegenerateSources : Prop :=
  (∀ order, freqList order [] = .error .emptySource) ∧
  (∀ (order : Config.DiscoveryOrder) (sym : Symbol) (n : Nat),
    freqList order (List.replicate (n + 1) sym) =
      .ok [⟨some (if sym = 127#7 then 0#7 else sym + 1#7), 0⟩, ⟨some sym, 1⟩]) ∧
  (∀ (order : Config.DiscoveryOrder) (source : List Symbol) (a b : Symbol), a ∈ source → b ∈ source →
    a ≠ b → freqList order source = .ok (sortedEntries order source)) ∧
  (∀ (order : Config.DiscoveryOrder) (input : List (Option Symbol)), none ∈ input →
    frequencyTable order input = .error .sourceFailure ∧ treeOfInput order input = .error .sourceFailure) ∧
  (∀ (order : Config.DiscoveryOrder) (source : List Symbol),
    frequencyTable order (source.map some) = freqList order source ∧
    treeOfInput order (source.map some) = treeOf order source)

/-- R133, R134, R135, R140: what `select` takes, Source on ties; what one pass makes, the first selected
to the left; the tree of R135's tie (95_test_vectors.md T2); `build` answers a tree exactly on lists of
two or more entries, with N − 1 internal nodes and the list's symbols at its leaves (a symbol that is
unset counting as 0, the model's choice, log entry 22); and the properties of what a source gives. -/
def Obligations.BuilderShape : Prop :=
  (∀ (x y : Item) (S T : List Item),
    (x.probability ≤ y.probability → select (x :: S) (y :: T) = some (x, S, y :: T)) ∧
    (y.probability < x.probability → select (x :: S) (y :: T) = some (y, x :: S, T)) ∧
    select (x :: S) [] = some (x, S, []) ∧ select [] (y :: T) = some (y, [], T)) ∧
  (∀ (fuel next : Nat) (S T S₁ T₁ S₂ T₂ : List Item) (first second : Item),
    S ≠ [] ∨ 1 < T.length → select S T = some (first, S₁, T₁) → select S₁ T₁ = some (second, S₂, T₂) →
    (buildLoop (fuel + 1) next S T).map (·.1) =
      (buildLoop fuel (next + 1) S₂
        (T₂ ++ [⟨next, .node (first.probability + second.probability) first.tree second.tree⟩])).map (·.1)) ∧
  (∀ (fuel next : Nat) (root : Item), buildLoop (fuel + 1) next [] [root] = some (root, [])) ∧
  build [⟨some 120#7, 1 / 4⟩, ⟨some 121#7, 1 / 4⟩, ⟨some 122#7, 1 / 2⟩] =
    some (.node 1 (.leaf 122#7 (1 / 2)) (.node (1 / 2) (.leaf 120#7 (1 / 4)) (.leaf 121#7 (1 / 4)))) ∧
  (∀ L : List SymbolFrequency, L.length < 2 → build L = none) ∧
  (∀ L : List SymbolFrequency, 2 ≤ L.length → ∃ root, build L = some root ∧
    root.internalCount = L.length - 1 ∧ root.isNode = true ∧
    root.leaves.Perm (L.map fun e => e.symbol.getD 0#7)) ∧
  ∀ (order : Config.DiscoveryOrder) (source : List Symbol) (root : TreeNode),
    treeOf order source = .ok root → ConstructionProperties order source root

/-- R136, R140 (c), (e): the codes of a tree with distinct leaf symbols: exactly the leaves have one,
none is a prefix of another, and each has 1 to 127 bits. -/
def Obligations.CodesPrefixFree : Prop :=
  ∀ root : TreeNode, root.isNode = true → root.leaves.Nodup →
    (∀ sym, (root.codes.code sym).isSome = true ↔ sym ∈ root.leaves) ∧
    (∀ sym code, root.codes.code sym = some code → 1 ≤ code.length ∧ code.length ≤ 127) ∧
    ∀ a b ca cb, root.codes.code a = some ca → root.codes.code b = some cb → a ≠ b → ¬ ca <+: cb

/-- R246: decoding what was encoded with the codes of the same tree, distinct symbols at its leaves,
gives the text back. -/
def Obligations.DecodeAfterEncode : Prop :=
  ∀ (root : TreeNode) (source : List Symbol), root.isNode = true → root.leaves.Nodup →
    (∀ sym ∈ source, sym ∈ root.leaves) →
    ∃ bytes, encodeText source root.codes = .ok bytes ∧ decodeBytes bytes root = .ok source

/-- R191 (b): for every non-empty source, decoding the encoded source with the tree built from it
gives the source back. -/
def Obligations.SourceRoundTrip : Prop :=
  ∀ (order : Config.DiscoveryOrder) (source : List Symbol), source ≠ [] →
    ∃ root bytes, treeOf order source = .ok root ∧ encodeText source root.codes = .ok bytes ∧
      decodeBytes bytes root = .ok source

/-- R137: the canonical TR image of a frequency list, sent in IDLE, leaves TR holding the built tree at ROOT. -/
def Obligations.TreeImageHoldsTree : Prop :=
  ∀ (L : List SymbolFrequency) (image : List Instr) (root : TreeNode) (s : State),
    L.length ≤ 128 → trImage L = some image → build L = some root → s.mode = .idle →
    ∃ t, execAll image s = .next t ∧ t.holds t.root root ∧ t = { s with tr := t.tr, root := t.root }

/-- R138: the CT image of a code table, sent in IDLE, writes the code of every symbol that has one and
makes absent the entry of every other symbol that an earlier session set, and touches no third entry; so
when `earlier` holds every entry that is present, CT holds exactly the code table. -/
def Obligations.CodeImageLoadsTable : Prop :=
  ∀ (earlier : List Symbol) (ct : CodeTable) (s : State),
    (∀ sym code, ct.code sym = some code → code.length ≤ 127) → s.mode = .idle →
    ∃ t, execAll (ctImage earlier ct) s = .next t ∧ t = { s with ct := t.ct, ctsel := t.ctsel } ∧
      (∀ sym code, ct.code sym = some code → t.readCt sym = some code) ∧
      (∀ sym, ct.code sym = none → sym ∈ earlier → t.readCt sym = none) ∧
      (∀ sym, ct.code sym = none → sym ∉ earlier → t.readCt sym = s.readCt sym) ∧
      ((∀ sym, s.readCt sym ≠ none → sym ∈ earlier) → ∀ sym, t.readCt sym = ct.code sym)

/-- R242: straight after reset, `DK_BEGIN 0` raises E_TREE with FINFO 0, `CT_BIT` raises E_SEQ, and
`PK_SYM` in a session raises E_MISSING, whatever the capacity. -/
def Obligations.FirstCommandsAfterReset : Prop :=
  ∀ s : State, AtReset s →
    (∃ t, exec (.dkBegin false) s = .next t ∧ t.err = 0x10#8 ∧ t.finfo = 0#8 ∧ t.mode = .fault) ∧
    (∀ v, ∃ t, exec (.ctBit v) s = .next t ∧ t.err = 0x20#8 ∧ t.mode = .fault) ∧
    (∀ sym, ∃ t, execAll [.pkBegin, .pkSym sym] s = .next t ∧ t.err = 0x02#8 ∧ t.mode = .fault) ∧
    (∃ t, exec (.dkBegin true) s = .next t ∧ t.mode = .dec ∧ t.err = 0#8)
end

