-- ==== Sys2Proof/Laws/State.lean ====
section
/-! SUPPORT. What each named operation leaves in each field of the state: one lemma per field and
operation, so that no proof unfolds a record update. -/

namespace Sys2Proof.Machine

/-! `State.writeTr` -/
@[simp] theorem State.writeTr_mode (s : State) (i : NodeIndex) (e : TrEntry) : (s.writeTr i e).mode = s.mode := rfl
@[simp] theorem State.writeTr_phase (s : State) (i : NodeIndex) (e : TrEntry) : (s.writeTr i e).phase = s.phase := rfl
@[simp] theorem State.writeTr_raw (s : State) (i : NodeIndex) (e : TrEntry) : (s.writeTr i e).raw = s.raw := rfl
@[simp] theorem State.writeTr_done (s : State) (i : NodeIndex) (e : TrEntry) : (s.writeTr i e).done = s.done := rfl
@[simp] theorem State.writeTr_err (s : State) (i : NodeIndex) (e : TrEntry) : (s.writeTr i e).err = s.err := rfl
@[simp] theorem State.writeTr_fcause (s : State) (i : NodeIndex) (e : TrEntry) : (s.writeTr i e).fcause = s.fcause := rfl
@[simp] theorem State.writeTr_finfo (s : State) (i : NodeIndex) (e : TrEntry) : (s.writeTr i e).finfo = s.finfo := rfl
@[simp] theorem State.writeTr_pbuf (s : State) (i : NodeIndex) (e : TrEntry) : (s.writeTr i e).pbuf = s.pbuf := rfl
@[simp] theorem State.writeTr_cur (s : State) (i : NodeIndex) (e : TrEntry) : (s.writeTr i e).cur = s.cur := rfl
@[simp] theorem State.writeTr_root (s : State) (i : NodeIndex) (e : TrEntry) : (s.writeTr i e).root = s.root := rfl
@[simp] theorem State.writeTr_ctsel (s : State) (i : NodeIndex) (e : TrEntry) : (s.writeTr i e).ctsel = s.ctsel := rfl
@[simp] theorem State.writeTr_tr (s : State) (i : NodeIndex) (e : TrEntry) : (s.writeTr i e).tr = s.tr.put i.toNat e := rfl
@[simp] theorem State.writeTr_ct (s : State) (i : NodeIndex) (e : TrEntry) : (s.writeTr i e).ct = s.ct := rfl
@[simp] theorem State.writeTr_byteOut (s : State) (i : NodeIndex) (e : TrEntry) : (s.writeTr i e).byteOut = s.byteOut := rfl
@[simp] theorem State.writeTr_decOut (s : State) (i : NodeIndex) (e : TrEntry) : (s.writeTr i e).decOut = s.decOut := rfl
@[simp] theorem State.writeTr_rspOut (s : State) (i : NodeIndex) (e : TrEntry) : (s.writeTr i e).rspOut = s.rspOut := rfl
@[simp] theorem State.writeTr_pbufBits (s : State) (i : NodeIndex) (e : TrEntry) : (s.writeTr i e).pbufBits = s.pbufBits := rfl
@[simp] theorem State.writeTr_cmdIn (s : State) (i : NodeIndex) (e : TrEntry) : (s.writeTr i e).cmdIn = s.cmdIn := rfl

/-! `State.writeCt` -/
@[simp] theorem State.writeCt_mode (s : State) (sym : Symbol) (code : Bits) : (s.writeCt sym code).mode = s.mode := rfl
@[simp] theorem State.writeCt_phase (s : State) (sym : Symbol) (code : Bits) : (s.writeCt sym code).phase = s.phase := rfl
@[simp] theorem State.writeCt_raw (s : State) (sym : Symbol) (code : Bits) : (s.writeCt sym code).raw = s.raw := rfl
@[simp] theorem State.writeCt_done (s : State) (sym : Symbol) (code : Bits) : (s.writeCt sym code).done = s.done := rfl
@[simp] theorem State.writeCt_err (s : State) (sym : Symbol) (code : Bits) : (s.writeCt sym code).err = s.err := rfl
@[simp] theorem State.writeCt_fcause (s : State) (sym : Symbol) (code : Bits) : (s.writeCt sym code).fcause = s.fcause := rfl
@[simp] theorem State.writeCt_finfo (s : State) (sym : Symbol) (code : Bits) : (s.writeCt sym code).finfo = s.finfo := rfl
@[simp] theorem State.writeCt_pbuf (s : State) (sym : Symbol) (code : Bits) : (s.writeCt sym code).pbuf = s.pbuf := rfl
@[simp] theorem State.writeCt_cur (s : State) (sym : Symbol) (code : Bits) : (s.writeCt sym code).cur = s.cur := rfl
@[simp] theorem State.writeCt_root (s : State) (sym : Symbol) (code : Bits) : (s.writeCt sym code).root = s.root := rfl
@[simp] theorem State.writeCt_ctsel (s : State) (sym : Symbol) (code : Bits) : (s.writeCt sym code).ctsel = s.ctsel := rfl
@[simp] theorem State.writeCt_tr (s : State) (sym : Symbol) (code : Bits) : (s.writeCt sym code).tr = s.tr := rfl
@[simp] theorem State.writeCt_ct (s : State) (sym : Symbol) (code : Bits) : (s.writeCt sym code).ct = s.ct.put sym.toNat code := rfl
@[simp] theorem State.writeCt_byteOut (s : State) (sym : Symbol) (code : Bits) : (s.writeCt sym code).byteOut = s.byteOut := rfl
@[simp] theorem State.writeCt_decOut (s : State) (sym : Symbol) (code : Bits) : (s.writeCt sym code).decOut = s.decOut := rfl
@[simp] theorem State.writeCt_rspOut (s : State) (sym : Symbol) (code : Bits) : (s.writeCt sym code).rspOut = s.rspOut := rfl
@[simp] theorem State.writeCt_pbufBits (s : State) (sym : Symbol) (code : Bits) : (s.writeCt sym code).pbufBits = s.pbufBits := rfl
@[simp] theorem State.writeCt_cmdIn (s : State) (sym : Symbol) (code : Bits) : (s.writeCt sym code).cmdIn = s.cmdIn := rfl

/-! `State.clearCt` -/
@[simp] theorem State.clearCt_mode (s : State) (sym : Symbol) : (s.clearCt sym).mode = s.mode := rfl
@[simp] theorem State.clearCt_phase (s : State) (sym : Symbol) : (s.clearCt sym).phase = s.phase := rfl
@[simp] theorem State.clearCt_raw (s : State) (sym : Symbol) : (s.clearCt sym).raw = s.raw := rfl
@[simp] theorem State.clearCt_done (s : State) (sym : Symbol) : (s.clearCt sym).done = s.done := rfl
@[simp] theorem State.clearCt_err (s : State) (sym : Symbol) : (s.clearCt sym).err = s.err := rfl
@[simp] theorem State.clearCt_fcause (s : State) (sym : Symbol) : (s.clearCt sym).fcause = s.fcause := rfl
@[simp] theorem State.clearCt_finfo (s : State) (sym : Symbol) : (s.clearCt sym).finfo = s.finfo := rfl
@[simp] theorem State.clearCt_pbuf (s : State) (sym : Symbol) : (s.clearCt sym).pbuf = s.pbuf := rfl
@[simp] theorem State.clearCt_cur (s : State) (sym : Symbol) : (s.clearCt sym).cur = s.cur := rfl
@[simp] theorem State.clearCt_root (s : State) (sym : Symbol) : (s.clearCt sym).root = s.root := rfl
@[simp] theorem State.clearCt_ctsel (s : State) (sym : Symbol) : (s.clearCt sym).ctsel = s.ctsel := rfl
@[simp] theorem State.clearCt_tr (s : State) (sym : Symbol) : (s.clearCt sym).tr = s.tr := rfl
@[simp] theorem State.clearCt_ct (s : State) (sym : Symbol) : (s.clearCt sym).ct = s.ct.erase sym.toNat := rfl
@[simp] theorem State.clearCt_byteOut (s : State) (sym : Symbol) : (s.clearCt sym).byteOut = s.byteOut := rfl
@[simp] theorem State.clearCt_decOut (s : State) (sym : Symbol) : (s.clearCt sym).decOut = s.decOut := rfl
@[simp] theorem State.clearCt_rspOut (s : State) (sym : Symbol) : (s.clearCt sym).rspOut = s.rspOut := rfl
@[simp] theorem State.clearCt_pbufBits (s : State) (sym : Symbol) : (s.clearCt sym).pbufBits = s.pbufBits := rfl
@[simp] theorem State.clearCt_cmdIn (s : State) (sym : Symbol) : (s.clearCt sym).cmdIn = s.cmdIn := rfl

/-! `State.emitBytes` -/
@[simp] theorem State.emitBytes_mode (s : State) (bs : List Byte) : (s.emitBytes bs).mode = s.mode := rfl
@[simp] theorem State.emitBytes_phase (s : State) (bs : List Byte) : (s.emitBytes bs).phase = s.phase := rfl
@[simp] theorem State.emitBytes_raw (s : State) (bs : List Byte) : (s.emitBytes bs).raw = s.raw := rfl
@[simp] theorem State.emitBytes_done (s : State) (bs : List Byte) : (s.emitBytes bs).done = s.done := rfl
@[simp] theorem State.emitBytes_err (s : State) (bs : List Byte) : (s.emitBytes bs).err = s.err := rfl
@[simp] theorem State.emitBytes_fcause (s : State) (bs : List Byte) : (s.emitBytes bs).fcause = s.fcause := rfl
@[simp] theorem State.emitBytes_finfo (s : State) (bs : List Byte) : (s.emitBytes bs).finfo = s.finfo := rfl
@[simp] theorem State.emitBytes_pbuf (s : State) (bs : List Byte) : (s.emitBytes bs).pbuf = s.pbuf := rfl
@[simp] theorem State.emitBytes_cur (s : State) (bs : List Byte) : (s.emitBytes bs).cur = s.cur := rfl
@[simp] theorem State.emitBytes_root (s : State) (bs : List Byte) : (s.emitBytes bs).root = s.root := rfl
@[simp] theorem State.emitBytes_ctsel (s : State) (bs : List Byte) : (s.emitBytes bs).ctsel = s.ctsel := rfl
@[simp] theorem State.emitBytes_tr (s : State) (bs : List Byte) : (s.emitBytes bs).tr = s.tr := rfl
@[simp] theorem State.emitBytes_ct (s : State) (bs : List Byte) : (s.emitBytes bs).ct = s.ct := rfl
@[simp] theorem State.emitBytes_byteOut (s : State) (bs : List Byte) : (s.emitBytes bs).byteOut = s.byteOut ++ bs := rfl
@[simp] theorem State.emitBytes_decOut (s : State) (bs : List Byte) : (s.emitBytes bs).decOut = s.decOut := rfl
@[simp] theorem State.emitBytes_rspOut (s : State) (bs : List Byte) : (s.emitBytes bs).rspOut = s.rspOut := rfl
@[simp] theorem State.emitBytes_pbufBits (s : State) (bs : List Byte) : (s.emitBytes bs).pbufBits = s.pbufBits := rfl
@[simp] theorem State.emitBytes_cmdIn (s : State) (bs : List Byte) : (s.emitBytes bs).cmdIn = s.cmdIn := rfl

/-! `State.emitDec` -/
@[simp] theorem State.emitDec_mode (s : State) (d : Byte) : (s.emitDec d).mode = s.mode := rfl
@[simp] theorem State.emitDec_phase (s : State) (d : Byte) : (s.emitDec d).phase = s.phase := rfl
@[simp] theorem State.emitDec_raw (s : State) (d : Byte) : (s.emitDec d).raw = s.raw := rfl
@[simp] theorem State.emitDec_done (s : State) (d : Byte) : (s.emitDec d).done = s.done := rfl
@[simp] theorem State.emitDec_err (s : State) (d : Byte) : (s.emitDec d).err = s.err := rfl
@[simp] theorem State.emitDec_fcause (s : State) (d : Byte) : (s.emitDec d).fcause = s.fcause := rfl
@[simp] theorem State.emitDec_finfo (s : State) (d : Byte) : (s.emitDec d).finfo = s.finfo := rfl
@[simp] theorem State.emitDec_pbuf (s : State) (d : Byte) : (s.emitDec d).pbuf = s.pbuf := rfl
@[simp] theorem State.emitDec_cur (s : State) (d : Byte) : (s.emitDec d).cur = s.cur := rfl
@[simp] theorem State.emitDec_root (s : State) (d : Byte) : (s.emitDec d).root = s.root := rfl
@[simp] theorem State.emitDec_ctsel (s : State) (d : Byte) : (s.emitDec d).ctsel = s.ctsel := rfl
@[simp] theorem State.emitDec_tr (s : State) (d : Byte) : (s.emitDec d).tr = s.tr := rfl
@[simp] theorem State.emitDec_ct (s : State) (d : Byte) : (s.emitDec d).ct = s.ct := rfl
@[simp] theorem State.emitDec_byteOut (s : State) (d : Byte) : (s.emitDec d).byteOut = s.byteOut := rfl
@[simp] theorem State.emitDec_decOut (s : State) (d : Byte) : (s.emitDec d).decOut = s.decOut ++ [d] := rfl
@[simp] theorem State.emitDec_rspOut (s : State) (d : Byte) : (s.emitDec d).rspOut = s.rspOut := rfl
@[simp] theorem State.emitDec_pbufBits (s : State) (d : Byte) : (s.emitDec d).pbufBits = s.pbufBits := rfl
@[simp] theorem State.emitDec_cmdIn (s : State) (d : Byte) : (s.emitDec d).cmdIn = s.cmdIn := rfl

/-! `State.emitRsp` -/
@[simp] theorem State.emitRsp_mode (s : State) (w : Word) : (s.emitRsp w).mode = s.mode := rfl
@[simp] theorem State.emitRsp_phase (s : State) (w : Word) : (s.emitRsp w).phase = s.phase := rfl
@[simp] theorem State.emitRsp_raw (s : State) (w : Word) : (s.emitRsp w).raw = s.raw := rfl
@[simp] theorem State.emitRsp_done (s : State) (w : Word) : (s.emitRsp w).done = s.done := rfl
@[simp] theorem State.emitRsp_err (s : State) (w : Word) : (s.emitRsp w).err = s.err := rfl
@[simp] theorem State.emitRsp_fcause (s : State) (w : Word) : (s.emitRsp w).fcause = s.fcause := rfl
@[simp] theorem State.emitRsp_finfo (s : State) (w : Word) : (s.emitRsp w).finfo = s.finfo := rfl
@[simp] theorem State.emitRsp_pbuf (s : State) (w : Word) : (s.emitRsp w).pbuf = s.pbuf := rfl
@[simp] theorem State.emitRsp_cur (s : State) (w : Word) : (s.emitRsp w).cur = s.cur := rfl
@[simp] theorem State.emitRsp_root (s : State) (w : Word) : (s.emitRsp w).root = s.root := rfl
@[simp] theorem State.emitRsp_ctsel (s : State) (w : Word) : (s.emitRsp w).ctsel = s.ctsel := rfl
@[simp] theorem State.emitRsp_tr (s : State) (w : Word) : (s.emitRsp w).tr = s.tr := rfl
@[simp] theorem State.emitRsp_ct (s : State) (w : Word) : (s.emitRsp w).ct = s.ct := rfl
@[simp] theorem State.emitRsp_byteOut (s : State) (w : Word) : (s.emitRsp w).byteOut = s.byteOut := rfl
@[simp] theorem State.emitRsp_decOut (s : State) (w : Word) : (s.emitRsp w).decOut = s.decOut := rfl
@[simp] theorem State.emitRsp_rspOut (s : State) (w : Word) : (s.emitRsp w).rspOut = s.rspOut ++ [w] := rfl
@[simp] theorem State.emitRsp_pbufBits (s : State) (w : Word) : (s.emitRsp w).pbufBits = s.pbufBits := rfl
@[simp] theorem State.emitRsp_cmdIn (s : State) (w : Word) : (s.emitRsp w).cmdIn = s.cmdIn := rfl

/-! `State.setCur` -/
@[simp] theorem State.setCur_mode (s : State) (i : NodeIndex) : (s.setCur i).mode = s.mode := rfl
@[simp] theorem State.setCur_phase (s : State) (i : NodeIndex) : (s.setCur i).phase = s.phase := rfl
@[simp] theorem State.setCur_raw (s : State) (i : NodeIndex) : (s.setCur i).raw = s.raw := rfl
@[simp] theorem State.setCur_done (s : State) (i : NodeIndex) : (s.setCur i).done = s.done := rfl
@[simp] theorem State.setCur_err (s : State) (i : NodeIndex) : (s.setCur i).err = s.err := rfl
@[simp] theorem State.setCur_fcause (s : State) (i : NodeIndex) : (s.setCur i).fcause = s.fcause := rfl
@[simp] theorem State.setCur_finfo (s : State) (i : NodeIndex) : (s.setCur i).finfo = s.finfo := rfl
@[simp] theorem State.setCur_pbuf (s : State) (i : NodeIndex) : (s.setCur i).pbuf = s.pbuf := rfl
@[simp] theorem State.setCur_cur (s : State) (i : NodeIndex) : (s.setCur i).cur = i := rfl
@[simp] theorem State.setCur_root (s : State) (i : NodeIndex) : (s.setCur i).root = s.root := rfl
@[simp] theorem State.setCur_ctsel (s : State) (i : NodeIndex) : (s.setCur i).ctsel = s.ctsel := rfl
@[simp] theorem State.setCur_tr (s : State) (i : NodeIndex) : (s.setCur i).tr = s.tr := rfl
@[simp] theorem State.setCur_ct (s : State) (i : NodeIndex) : (s.setCur i).ct = s.ct := rfl
@[simp] theorem State.setCur_byteOut (s : State) (i : NodeIndex) : (s.setCur i).byteOut = s.byteOut := rfl
@[simp] theorem State.setCur_decOut (s : State) (i : NodeIndex) : (s.setCur i).decOut = s.decOut := rfl
@[simp] theorem State.setCur_rspOut (s : State) (i : NodeIndex) : (s.setCur i).rspOut = s.rspOut := rfl
@[simp] theorem State.setCur_pbufBits (s : State) (i : NodeIndex) : (s.setCur i).pbufBits = s.pbufBits := rfl
@[simp] theorem State.setCur_cmdIn (s : State) (i : NodeIndex) : (s.setCur i).cmdIn = s.cmdIn := rfl

/-! `State.raise` -/
@[simp] theorem State.raise_mode (s : State) (c : Cause) (info : Byte) : (s.raise c info).mode = (if c.stops then .fault else s.mode) := rfl
@[simp] theorem State.raise_phase (s : State) (c : Cause) (info : Byte) : (s.raise c info).phase = s.phase := rfl
@[simp] theorem State.raise_raw (s : State) (c : Cause) (info : Byte) : (s.raise c info).raw = s.raw := rfl
@[simp] theorem State.raise_done (s : State) (c : Cause) (info : Byte) : (s.raise c info).done = false := rfl
@[simp] theorem State.raise_err (s : State) (c : Cause) (info : Byte) : (s.raise c info).err = s.err ||| c.errBit := rfl
@[simp] theorem State.raise_fcause (s : State) (c : Cause) (info : Byte) : (s.raise c info).fcause = (if s.fcause = 0#4 then c.code else s.fcause) := rfl
@[simp] theorem State.raise_finfo (s : State) (c : Cause) (info : Byte) : (s.raise c info).finfo = (if s.fcause = 0#4 then info else s.finfo) := rfl
@[simp] theorem State.raise_pbuf (s : State) (c : Cause) (info : Byte) : (s.raise c info).pbuf = s.pbuf := rfl
@[simp] theorem State.raise_cur (s : State) (c : Cause) (info : Byte) : (s.raise c info).cur = s.cur := rfl
@[simp] theorem State.raise_root (s : State) (c : Cause) (info : Byte) : (s.raise c info).root = s.root := rfl
@[simp] theorem State.raise_ctsel (s : State) (c : Cause) (info : Byte) : (s.raise c info).ctsel = s.ctsel := rfl
@[simp] theorem State.raise_tr (s : State) (c : Cause) (info : Byte) : (s.raise c info).tr = s.tr := rfl
@[simp] theorem State.raise_ct (s : State) (c : Cause) (info : Byte) : (s.raise c info).ct = s.ct := rfl
@[simp] theorem State.raise_byteOut (s : State) (c : Cause) (info : Byte) : (s.raise c info).byteOut = s.byteOut := rfl
@[simp] theorem State.raise_decOut (s : State) (c : Cause) (info : Byte) : (s.raise c info).decOut = s.decOut := rfl
@[simp] theorem State.raise_rspOut (s : State) (c : Cause) (info : Byte) : (s.raise c info).rspOut = s.rspOut := rfl
@[simp] theorem State.raise_pbufBits (s : State) (c : Cause) (info : Byte) : (s.raise c info).pbufBits = s.pbufBits := rfl
@[simp] theorem State.raise_cmdIn (s : State) (c : Cause) (info : Byte) : (s.raise c info).cmdIn = s.cmdIn := rfl

/-! `State.resetBlock` -/
@[simp] theorem State.resetBlock_mode (s : State) : (s.resetBlock).mode = .idle := rfl
@[simp] theorem State.resetBlock_phase (s : State) : (s.resetBlock).phase = .head := rfl
@[simp] theorem State.resetBlock_raw (s : State) : (s.resetBlock).raw = false := rfl
@[simp] theorem State.resetBlock_done (s : State) : (s.resetBlock).done = false := rfl
@[simp] theorem State.resetBlock_err (s : State) : (s.resetBlock).err = 0#8 := rfl
@[simp] theorem State.resetBlock_fcause (s : State) : (s.resetBlock).fcause = 0#4 := rfl
@[simp] theorem State.resetBlock_finfo (s : State) : (s.resetBlock).finfo = 0#8 := rfl
@[simp] theorem State.resetBlock_pbuf (s : State) : (s.resetBlock).pbuf = [] := rfl
@[simp] theorem State.resetBlock_cur (s : State) : (s.resetBlock).cur = 0#8 := rfl
@[simp] theorem State.resetBlock_root (s : State) : (s.resetBlock).root = 0#8 := rfl
@[simp] theorem State.resetBlock_ctsel (s : State) : (s.resetBlock).ctsel = 0#7 := rfl
@[simp] theorem State.resetBlock_tr (s : State) : (s.resetBlock).tr = [] := rfl
@[simp] theorem State.resetBlock_ct (s : State) : (s.resetBlock).ct = [] := rfl
@[simp] theorem State.resetBlock_byteOut (s : State) : (s.resetBlock).byteOut = s.byteOut := rfl
@[simp] theorem State.resetBlock_decOut (s : State) : (s.resetBlock).decOut = s.decOut := rfl
@[simp] theorem State.resetBlock_rspOut (s : State) : (s.resetBlock).rspOut = s.rspOut := rfl
@[simp] theorem State.resetBlock_pbufBits (s : State) : (s.resetBlock).pbufBits = s.pbufBits := rfl
@[simp] theorem State.resetBlock_cmdIn (s : State) : (s.resetBlock).cmdIn = s.cmdIn := rfl

/-! `State.placeWord` -/
@[simp] theorem State.placeWord_mode (s : State) (w : Word) : (s.placeWord w).mode = s.mode := rfl
@[simp] theorem State.placeWord_phase (s : State) (w : Word) : (s.placeWord w).phase = s.phase := rfl
@[simp] theorem State.placeWord_raw (s : State) (w : Word) : (s.placeWord w).raw = s.raw := rfl
@[simp] theorem State.placeWord_done (s : State) (w : Word) : (s.placeWord w).done = s.done := rfl
@[simp] theorem State.placeWord_err (s : State) (w : Word) : (s.placeWord w).err = s.err := rfl
@[simp] theorem State.placeWord_fcause (s : State) (w : Word) : (s.placeWord w).fcause = s.fcause := rfl
@[simp] theorem State.placeWord_finfo (s : State) (w : Word) : (s.placeWord w).finfo = s.finfo := rfl
@[simp] theorem State.placeWord_pbuf (s : State) (w : Word) : (s.placeWord w).pbuf = s.pbuf := rfl
@[simp] theorem State.placeWord_cur (s : State) (w : Word) : (s.placeWord w).cur = s.cur := rfl
@[simp] theorem State.placeWord_root (s : State) (w : Word) : (s.placeWord w).root = s.root := rfl
@[simp] theorem State.placeWord_ctsel (s : State) (w : Word) : (s.placeWord w).ctsel = s.ctsel := rfl
@[simp] theorem State.placeWord_tr (s : State) (w : Word) : (s.placeWord w).tr = s.tr := rfl
@[simp] theorem State.placeWord_ct (s : State) (w : Word) : (s.placeWord w).ct = s.ct := rfl
@[simp] theorem State.placeWord_byteOut (s : State) (w : Word) : (s.placeWord w).byteOut = s.byteOut := rfl
@[simp] theorem State.placeWord_decOut (s : State) (w : Word) : (s.placeWord w).decOut = s.decOut := rfl
@[simp] theorem State.placeWord_rspOut (s : State) (w : Word) : (s.placeWord w).rspOut = s.rspOut := rfl
@[simp] theorem State.placeWord_pbufBits (s : State) (w : Word) : (s.placeWord w).pbufBits = s.pbufBits := rfl
@[simp] theorem State.placeWord_cmdIn (s : State) (w : Word) : (s.placeWord w).cmdIn = .word w :: s.cmdIn := rfl

/-! `Block.reset` and `State.reset` (R50, R52) -/
@[simp] theorem Block.reset_mode : Block.reset.mode = .idle := rfl
@[simp] theorem Block.reset_phase : Block.reset.phase = .head := rfl
@[simp] theorem Block.reset_raw : Block.reset.raw = false := rfl
@[simp] theorem Block.reset_done : Block.reset.done = false := rfl
@[simp] theorem Block.reset_err : Block.reset.err = 0#8 := rfl
@[simp] theorem Block.reset_fcause : Block.reset.fcause = 0#4 := rfl
@[simp] theorem Block.reset_finfo : Block.reset.finfo = 0#8 := rfl
@[simp] theorem Block.reset_pbuf : Block.reset.pbuf = [] := rfl
@[simp] theorem Block.reset_cur : Block.reset.cur = 0#8 := rfl
@[simp] theorem Block.reset_root : Block.reset.root = 0#8 := rfl
@[simp] theorem Block.reset_ctsel : Block.reset.ctsel = 0#7 := rfl
@[simp] theorem Block.reset_tr : Block.reset.tr = [] := rfl
@[simp] theorem Block.reset_ct : Block.reset.ct = [] := rfl
@[simp] theorem State.reset_toBlock : State.reset.toBlock = Block.reset := rfl
@[simp] theorem State.reset_byteOut : State.reset.byteOut = [] := rfl
@[simp] theorem State.reset_decOut : State.reset.decOut = [] := rfl
@[simp] theorem State.reset_rspOut : State.reset.rspOut = [] := rfl
@[simp] theorem State.reset_cmdIn : State.reset.cmdIn = [] := rfl

end Sys2Proof.Machine
end

