-- ==== Sys2Proof/Laws/Table.lean ====
section
/-! SUPPORT. Read after write on a table memory, and its canonical form under every operation. -/

namespace Sys2Proof.Machine

variable {α : Type}

@[simp] theorem Table.get_nil (k : Nat) : Table.get ([] : Table α) k = none := rfl

/-- Reading the entry just written gives what was written. -/
@[simp] theorem Table.get_put_same (t : Table α) (k : Nat) (v : α) : (t.put k v).get k = some v := by
  induction t with
  | nil => simp [Table.put, Table.get]
  | cons e rest ih =>
    obtain ⟨j, u⟩ := e
    simp only [Table.put]
    split
    · simp [Table.get]
    · split
      · simp [Table.get]
      · rename_i h
        simp [Table.get, h, ih]

/-- Writing one entry leaves every other entry alone. -/
theorem Table.get_put_other (t : Table α) {k i : Nat} (v : α) (h : i ≠ k) : (t.put k v).get i = t.get i := by
  have hk : k ≠ i := fun e => h e.symm
  induction t with
  | nil => simp [Table.put, Table.get, hk]
  | cons e rest ih =>
    obtain ⟨j, u⟩ := e
    simp only [Table.put]
    split
    · simp [Table.get, hk]
    · split
      · rename_i e
        subst e
        simp [Table.get, hk]
      · simp [Table.get, ih]

/-- An erased entry holds nothing. -/
@[simp] theorem Table.get_erase_same (t : Table α) (k : Nat) : (t.erase k).get k = none := by
  unfold Table.erase
  induction t with
  | nil => rfl
  | cons e rest ih =>
    obtain ⟨j, u⟩ := e
    by_cases h : j = k
    · simpa [List.filter_cons, h] using ih
    · simpa [List.filter_cons, h, Table.get] using ih

/-- Erasing one entry leaves every other entry alone. -/
theorem Table.get_erase_other (t : Table α) {k i : Nat} (h : i ≠ k) : (t.erase k).get i = t.get i := by
  unfold Table.erase
  induction t with
  | nil => rfl
  | cons e rest ih =>
    obtain ⟨j, u⟩ := e
    by_cases hj : j = k
    · subst hj
      have hji : j ≠ i := fun e => h e.symm
      simpa [List.filter_cons, Table.get, hji] using ih
    · simp only [ne_eq, decide_not, hj, List.filter_cons_of_pos, decide_false,
        Bool.not_false, Table.get] at ih ⊢
      rw [ih]

/-- The entries of a written table: the new one, and old ones. -/
theorem Table.mem_put {t : Table α} {k : Nat} {v : α} {e : Nat × α} (h : e ∈ t.put k v) : e = (k, v) ∨ e ∈ t := by
  induction t with
  | nil => simpa [Table.put] using h
  | cons f rest ih =>
    obtain ⟨j, u⟩ := f
    simp only [Table.put] at h
    split at h
    · simpa using h
    · split at h
      · rcases List.mem_cons.1 h with h | h
        · exact .inl h
        · exact .inr (List.mem_cons_of_mem _ h)
      · rcases List.mem_cons.1 h with h | h
        · exact .inr (h ▸ List.mem_cons_self)
        · exact (ih h).imp id (List.mem_cons_of_mem _)

/-- A write within the size of the memory keeps the canonical form. -/
theorem Table.wf_put {size : Nat} {t : Table α} {k : Nat} (v : α) (hk : k < size) (h : t.wf size) :
    (t.put k v).wf size := by
  refine ⟨?_, fun e he => ?_⟩
  · replace h := h.1
    induction t with
    | nil => simp [Table.put]
    | cons f rest ih =>
      obtain ⟨j, u⟩ := f
      obtain ⟨hj, hr⟩ := List.pairwise_cons.1 h
      simp only [Table.put]
      split
      · rename_i hlt
        refine List.pairwise_cons.2 ⟨fun e he => ?_, h⟩
        rcases List.mem_cons.1 he with rfl | he
        · exact hlt
        · exact lt_trans hlt (hj e he)
      · split
        · rename_i _ hjk
          subst hjk
          exact List.pairwise_cons.2 ⟨hj, hr⟩
        · rename_i hlt hne
          refine List.pairwise_cons.2 ⟨fun e he => ?_, ih hr⟩
          rcases Table.mem_put he with rfl | he
          · exact lt_of_le_of_ne (Nat.le_of_not_lt hlt) hne
          · exact hj e he
  · rcases Table.mem_put he with rfl | he
    · exact hk
    · exact h.2 e he

/-- Erasing keeps the canonical form. -/
theorem Table.wf_erase {size : Nat} {t : Table α} (k : Nat) (h : t.wf size) : (t.erase k).wf size :=
  ⟨h.1.filter _, fun e he => h.2 e (List.mem_of_mem_filter he)⟩

/-- What is read is an entry of the table. -/
theorem Table.mem_of_get {t : Table α} {k : Nat} {v : α} (h : t.get k = some v) : (k, v) ∈ t := by
  induction t with
  | nil => simp [Table.get] at h
  | cons e rest ih =>
    obtain ⟨j, u⟩ := e
    simp only [Table.get] at h
    split at h
    · rename_i hj
      simp_all
    · exact List.mem_cons_of_mem _ (ih h)

end Sys2Proof.Machine
end

