-- ==== Sys2Proof/Laws/Ops.lean ====
section
/-! SUPPORT. One lemma for each shared operation that says what it can do: table reads after writes,
fault entry (60_exceptions.md R216), and the mode checks (30_encoding.md R90, R98, R99). -/

namespace Sys2Proof.Machine

/-! Table accesses through the state. -/

@[simp] theorem State.readTr_writeTr_same (s : State) (i : NodeIndex) (e : TrEntry) :
    (s.writeTr i e).readTr i = some e := by simp [State.readTr]

theorem State.readTr_writeTr_other (s : State) {i j : NodeIndex} (e : TrEntry) (h : j ≠ i) :
    (s.writeTr i e).readTr j = s.readTr j := by
  simp only [State.readTr, State.writeTr_tr]
  exact Table.get_put_other _ _ fun hn => h (BitVec.eq_of_toNat_eq hn)

@[simp] theorem State.readCt_writeCt_same (s : State) (i : Symbol) (code : Bits) :
    (s.writeCt i code).readCt i = some code := by simp [State.readCt]

theorem State.readCt_writeCt_other (s : State) {i j : Symbol} (code : Bits) (h : j ≠ i) :
    (s.writeCt i code).readCt j = s.readCt j := by
  simp only [State.readCt, State.writeCt_ct]
  exact Table.get_put_other _ _ fun hn => h (BitVec.eq_of_toNat_eq hn)

@[simp] theorem State.readCt_clearCt_same (s : State) (i : Symbol) : (s.clearCt i).readCt i = none := by
  simp [State.readCt]

theorem State.readCt_clearCt_other (s : State) {i j : Symbol} (h : j ≠ i) :
    (s.clearCt i).readCt j = s.readCt j := by
  simp only [State.readCt, State.clearCt_ct]
  exact Table.get_erase_other _ fun hn => h (BitVec.eq_of_toNat_eq hn)

/-! Flags. -/

/-- A cause's ERR bit is one bit, at the cause's number. -/
theorem Cause.errBit_getLsbD (c : Cause) {k : Nat} (hk : k < 8) : c.errBit.getLsbD k = (k == c.errIndex) := by
  interval_cases k <;> cases c <;> decide

theorem Cause.errBit_ne_zero (c : Cause) : c.errBit ≠ 0#8 := by cases c <;> decide

theorem Cause.code_ne_zero (c : Cause) : c.code ≠ 0#4 := by cases c <;> decide

theorem Cause.code_toNat (c : Cause) : c.code.toNat = c.errIndex + 1 := by cases c <;> decide

/-- A flag once set stays set when another is raised. -/
theorem or_keeps_bit {e f : BitVec 8} {k : Nat} (h : e.getLsbD k = true) : (e ||| f).getLsbD k = true := by
  simp [BitVec.getLsbD_or, h]

theorem or_errBit_ne_zero (e : BitVec 8) (c : Cause) : e ||| c.errBit ≠ 0#8 := by
  intro h
  have hk := congrArg (fun x => x.getLsbD c.errIndex) h
  cases c <;> simp [Cause.errBit, Cause.errIndex] at hk

/-- Fault entry leaves ERR nonzero. -/
theorem State.raise_err_ne_zero (s : State) (c : Cause) (info : Byte) : (s.raise c info).err ≠ 0#8 :=
  or_errBit_ne_zero s.err c

/-- Fault entry leaves FCAUSE nonzero. -/
theorem State.raise_fcause_ne_zero (s : State) (c : Cause) (info : Byte) : (s.raise c info).fcause ≠ 0#4 := by
  rw [State.raise_fcause]
  split
  · exact c.code_ne_zero
  · assumption

/-- A fault that stops the session leaves MODE = FAULT. -/
theorem State.raise_mode_of_stops (s : State) {c : Cause} (info : Byte) (h : c.stops = true) :
    (s.raise c info).mode = .fault := by simp [h]

/-! The mode checks. -/

/-- In FAULT a session or table command does nothing (R99). -/
theorem State.whenAdmitted_fault {s : State} (i : Instr) (body : State → State) (h : s.mode = .fault) :
    s.whenAdmitted i body = s := by simp [State.whenAdmitted, h]

/-- In a mode that admits it a command runs by its own rule (R98). -/
theorem State.whenAdmitted_runs {s : State} {i : Instr} (body : State → State) (hf : s.mode ≠ .fault)
    (h : admittedIn i s.mode = true) : s.whenAdmitted i body = body s := by
  simp [State.whenAdmitted, hf, h]

/-- In another mode it raises E_SEQ (R98). -/
theorem State.whenAdmitted_seq {s : State} {i : Instr} (body : State → State) (hf : s.mode ≠ .fault)
    (h : admittedIn i s.mode = false) : s.whenAdmitted i body = s.raise .seq (commandByte i) := by
  simp [State.whenAdmitted, hf, h]

/-- All a command under the mode checks can do: nothing in FAULT, its own rule where admitted, E_SEQ elsewhere. -/
theorem State.whenAdmitted_cases (s : State) (i : Instr) (body : State → State) :
    (s.mode = .fault ∧ s.whenAdmitted i body = s) ∨
    (s.mode ≠ .fault ∧ admittedIn i s.mode = true ∧ s.whenAdmitted i body = body s) ∨
    (s.mode ≠ .fault ∧ admittedIn i s.mode = false ∧ s.whenAdmitted i body = s.raise .seq (commandByte i)) := by
  by_cases hf : s.mode = .fault
  · exact .inl ⟨hf, s.whenAdmitted_fault i body hf⟩
  · cases h : admittedIn i s.mode with
    | true => exact .inr (.inl ⟨hf, rfl, State.whenAdmitted_runs body hf h⟩)
    | false => exact .inr (.inr ⟨hf, rfl, State.whenAdmitted_seq body hf h⟩)

end Sys2Proof.Machine
end

