-- ==== Sys2Proof/Laws/Step.lean ====
section
/-! SUPPORT. What a command and a step can do: `exec` always answers a next state, and the inversion
of `step` over the host's inputs. -/

namespace Sys2Proof.Machine

/-- The state a command leaves; there always is one, by `exec_eq_after`. -/
def after (i : Instr) (s : State) : State :=
  match exec i s with
  | .next t => t
  | .fault _ => s
  | .refused _ => s

/-- Every command answers a next state, whatever the state (70_reset_and_hazards.md R258). -/
theorem exec_eq_after (i : Instr) (s : State) : exec i s = .next (after i s) := by cases i <;> rfl

/-- All a step can do: wait, run a command, meet an illegal word, or reset. -/
theorem step_cases (s : State) :
    (s.cmdIn = [] ∧ step s = .next s) ∨
    (∃ rest, s.cmdIn = .reset :: rest ∧ step s = .next { s with cmdIn := rest }.resetBlock) ∨
    (∃ w rest i, s.cmdIn = .word w :: rest ∧ decode w = some i ∧
      step s = .next (after i { s with cmdIn := rest })) ∨
    (∃ w rest, s.cmdIn = .word w :: rest ∧ decode w = none ∧
      step s = .next (illegalWord w { s with cmdIn := rest })) := by
  unfold step State.takeInput
  match h : s.cmdIn with
  | [] => exact .inl ⟨rfl, rfl⟩
  | .reset :: rest => exact .inr (.inl ⟨rest, rfl, rfl⟩)
  | .word w :: rest =>
    match hd : decode w with
    | some i =>
      refine .inr (.inr (.inl ⟨w, rest, i, rfl, hd, ?_⟩))
      simp [deliver, deliverWord, hd, exec_eq_after]
    | none =>
      refine .inr (.inr (.inr ⟨w, rest, rfl, hd, ?_⟩))
      simp [deliver, deliverWord, hd]

end Sys2Proof.Machine
end

