-- ==== Sys2Proof/Laws/Block.lean ====
section
/-! SUPPORT. The block's state is the record of 10_state.md R20 and nothing else: what a command makes
of it depends on that record and the parameter PBUF_BITS alone, on no trace and no input still to come. -/

namespace Sys2Proof.Machine

/-- Two states with the same block and the same PBUF_BITS. -/
def State.SameBlock (s u : State) : Prop := s.toBlock = u.toBlock ∧ s.pbufBits = u.pbufBits

/-- A state is its block, its PBUF_BITS, and what the block cannot see. -/
theorem State.SameBlock.eq {s u : State} (h : s.SameBlock u) :
    u = { s with toTraces := u.toTraces, cmdIn := u.cmdIn } := by
  obtain ⟨b, t, ⟨p, q⟩⟩ := s
  obtain ⟨b', t', ⟨p', q'⟩⟩ := u
  obtain ⟨h₁, h₂⟩ := h
  simp_all

/-- Feeding payload bits is blind to the traces and the queue. -/
theorem State.feed_sameBlock (B : Bits) (s : State) (out : Traces) (q : List HostInput) :
    (({ s with toTraces := out, cmdIn := q } : State).feed B).toBlock = (s.feed B).toBlock := by
  induction B generalizing s out with
  | nil => rfl
  | cons v vs ih =>
    simp only [State.feed]
    split
    · exact ih (s.emitDec (rawItem v)) _
    · simp only [State.walk, State.readTr]
      rcases s.tr.get s.cur.toNat with _ | ⟨sym⟩ | ⟨left, right⟩
      · rfl
      · rfl
      · dsimp only
        rcases s.tr.get (if v = true then right else left).toNat with _ | ⟨sym⟩ | ⟨l, r⟩
        · rfl
        · exact ih ((s.emitDec _).setCur s.root) _
        · exact ih (s.setCur _) _

/-- Every command is blind to the traces and the queue. -/
theorem after_sameBlock (i : Instr) {s u : State} (h : s.SameBlock u) :
    (after i u).toBlock = (after i s).toBlock := by
  rw [h.eq]
  generalize u.toTraces = out
  generalize u.cmdIn = q
  cases i with
  | nop => rfl
  | rst => rfl
  | rdReg r => rfl
  | dkByte byte =>
    simp only [after, exec, execDkByte, State.whenAdmitted]
    split
    · rfl
    · split
      · split
        · exact State.feed_sameBlock _ s out q
        · split
          · rfl
          · exact State.feed_sameBlock _ { s with phase := .body } out q
      · rfl
  | dkBegin raw =>
    simp only [after, exec, execDkBegin, State.whenAdmitted]
    split
    · rfl
    · split
      · split <;> rename_i h₁ <;> split <;> rename_i h₂ <;>
          first
            | rfl
            | exact absurd h₁ h₂
            | exact absurd h₂ h₁
      · rfl
  | _ =>
    simp only [after, exec, execTrLeaf, execTrNode, execSetRoot, execCtClr, execCtNew, execCtBit, execPkBegin,
      execPkSym, execPkChar, execPkEnd, execDkEnd, State.whenAdmitted, State.readCt, State.appendBits]
    repeat' split
    all_goals first | rfl | simp_all [State.raise]

end Sys2Proof.Machine
end

