-- ==== Sys2Proof/Laws/Decoding.lean ====
section
/-! SUPPORT. All that feeding payload bits can do (43_unpack_decode.md R186, R188; 60_exceptions.md R217). -/

namespace Sys2Proof.Machine

/-- One walk step: a move or an emitted symbol, the walk then standing on an internal node if it did
before and the root is one; or E_TREE with the index of an entry that is no internal node. -/
theorem State.walk_cases (s : State) (v : Bool) :
    (∃ out c, s.walk v = .ok { s with decOut := s.decOut ++ out, cur := c } ∧
      (s.internalAt s.root → s.internalAt c)) ∨
    ∃ bad, ¬ s.internalAt bad ∧ s.walk v = .error (s.raise .tree bad) := by
  unfold State.walk
  split
  · rename_i left right _
    dsimp only
    split
    · rename_i h
      exact .inr ⟨_, by simp [State.internalAt, h, isInternal], rfl⟩
    · exact .inl ⟨_, _, rfl, id⟩
    · rename_i h
      refine .inl ⟨[], if v then right else left, ?_, fun _ => ?_⟩
      · simp [State.setCur]
      · simp [State.internalAt, h, isInternal]
  · rename_i h
    refine .inr ⟨_, ?_, rfl⟩
    unfold State.internalAt isInternal
    split
    · exact absurd ‹_› (h _ _)
    · simp

/-- Feeding bits appends items to DEC_OUT and moves CUR, and then, in a symbol session, may have raised
E_TREE with the index of an entry that is no internal node; nothing else. -/
theorem State.feed_cases (B : Bits) (s : State) : ∃ out c,
    (s.feed B = { s with decOut := s.decOut ++ out, cur := c } ∧
      (s.internalAt s.cur → s.internalAt s.root → s.internalAt c)) ∨
    ∃ bad, s.raw = false ∧ ¬ s.internalAt bad ∧
      s.feed B = { s with decOut := s.decOut ++ out, cur := c }.raise .tree bad := by
  induction B generalizing s with
  | nil => exact ⟨[], s.cur, .inl ⟨by simp [State.feed], fun h _ => h⟩⟩
  | cons v vs ih =>
    rw [State.feed]
    split
    · obtain ⟨out, c, h⟩ := ih (s.emitDec (rawItem v))
      refine ⟨rawItem v :: out, c, h.imp (fun h => ⟨?_, fun hc hr => h.2 hc hr⟩) fun ⟨bad, hr, hb, h⟩ => ⟨bad, hr, hb, ?_⟩⟩
      · rw [h.1]; simp [State.emitDec]
      · rw [h]; simp [State.emitDec]
    · rename_i hraw
      rcases s.walk_cases v with ⟨o, c, hw, hi⟩ | ⟨bad, hb, hw⟩
      · rw [hw]
        obtain ⟨out, d, h⟩ := ih { s with decOut := s.decOut ++ o, cur := c }
        refine ⟨o ++ out, d, h.imp (fun h => ⟨?_, fun _ hr => h.2 (hi hr) hr⟩) fun ⟨bad, hr, hb, h⟩ => ⟨bad, hr, hb, ?_⟩⟩
        · simp only [h.1, List.append_assoc]
        · simp only [h, List.append_assoc]
      · rw [hw]
        exact ⟨[], s.cur, .inr ⟨bad, by simpa using hraw, hb, by simp⟩⟩

end Sys2Proof.Machine
end

