-- ==== Sys2Proof/Laws/Encoding.lean ====
section
/-! SUPPORT. The fields of the one word format (30_encoding.md R91) and the operand fields. -/

namespace Sys2Proof

/-- Every bit of a formatted word, field by field. -/
theorem formatWord_getLsbD (op : BitVec 4) (a b c : Byte) (i : Nat) :
    (formatWord op a b c).getLsbD i =
      if i < 8 then c.getLsbD i else if i < 16 then b.getLsbD (i - 8) else if i < 20 then false
      else if i < 28 then a.getLsbD (i - 20) else op.getLsbD (i - 28) := by
  show ((op ++ a ++ 0#4 ++ b ++ c) : BitVec (4 + 8 + 4 + 8 + 8)).getLsbD i = _
  rw [BitVec.getLsbD_append, BitVec.getLsbD_append, BitVec.getLsbD_append, BitVec.getLsbD_append]
  have e1 : i - 8 < 8 ↔ i < 16 := by omega
  have e2 : i - 8 - 8 < 4 ↔ i < 20 := by omega
  have e3 : i - 8 - 8 - 4 = i - 20 := by omega
  have e4 : i - 20 < 8 ↔ i < 28 := by omega
  have e5 : i - 20 - 8 = i - 28 := by omega
  simp only [e1, e2, e3, e4, e5, BitVec.getLsbD_zero]

@[simp] theorem fieldOp_formatWord (op : BitVec 4) (a b c : Byte) : fieldOp (formatWord op a b c) = op := by
  apply BitVec.eq_of_getLsbD_eq; intro i hi
  rw [fieldOp, BitVec.getLsbD_extractLsb', formatWord_getLsbD]
  interval_cases i <;> simp

@[simp] theorem fieldA_formatWord (op : BitVec 4) (a b c : Byte) : fieldA (formatWord op a b c) = a := by
  apply BitVec.eq_of_getLsbD_eq; intro i hi
  rw [fieldA, BitVec.getLsbD_extractLsb', formatWord_getLsbD]
  interval_cases i <;> simp

@[simp] theorem fieldZ_formatWord (op : BitVec 4) (a b c : Byte) : fieldZ (formatWord op a b c) = 0#4 := by
  apply BitVec.eq_of_getLsbD_eq; intro i hi
  rw [fieldZ, BitVec.getLsbD_extractLsb', formatWord_getLsbD]
  interval_cases i <;> simp

@[simp] theorem fieldB_formatWord (op : BitVec 4) (a b c : Byte) : fieldB (formatWord op a b c) = b := by
  apply BitVec.eq_of_getLsbD_eq; intro i hi
  rw [fieldB, BitVec.getLsbD_extractLsb', formatWord_getLsbD]
  interval_cases i <;> simp

@[simp] theorem fieldC_formatWord (op : BitVec 4) (a b c : Byte) : fieldC (formatWord op a b c) = c := by
  apply BitVec.eq_of_getLsbD_eq; intro i hi
  rw [fieldC, BitVec.getLsbD_extractLsb', formatWord_getLsbD]
  interval_cases i <;> simp

/-- A word whose z field is zero is the format of its fields. -/
theorem formatWord_fields (w : Word) (hz : fieldZ w = 0#4) :
    formatWord (fieldOp w) (fieldA w) (fieldB w) (fieldC w) = w := by
  have hz' : ∀ i, i < 4 → w.getLsbD (16 + i) = false := fun i hi => by
    have h := congrArg (fun x => x.getLsbD i) hz
    simpa [fieldZ, hi] using h
  have h0 := hz' 0 (by omega); have h1 := hz' 1 (by omega)
  have h2 := hz' 2 (by omega); have h3 := hz' 3 (by omega)
  apply BitVec.eq_of_getLsbD_eq; intro i hi
  rw [formatWord_getLsbD]
  simp only [fieldOp, fieldA, fieldB, fieldC, BitVec.getLsbD_extractLsb']
  interval_cases i <;> simp_all

@[simp] theorem symbolOf_symbolField (sym : Symbol) : symbolOf (symbolField sym) = some sym := by
  revert sym; decide

@[simp] theorem bitOf_bitField (v : Bool) : bitOf (bitField v) = some v := by
  revert v; decide

@[simp] theorem regOf_regField (r : BitVec 2) : regOf (regField r) = some r := by
  revert r; decide

/-- The bits of a symbol operand; its bit 7 is zero. -/
theorem symbolField_getLsbD (sym : Symbol) (i : Nat) : (symbolField sym).getLsbD i = sym.getLsbD i := by
  rw [symbolField, BitVec.getLsbD_append]
  split
  · rfl
  · rename_i h
    simp [BitVec.getLsbD_of_ge sym i (by omega)]

/-- A symbol operand is read from just its own field. -/
theorem symbolField_of_symbolOf {c : Byte} {sym : Symbol} (h : symbolOf c = some sym) : symbolField sym = c := by
  have all : ∀ c : Byte, ((symbolOf c).map symbolField).getD c = c := by decide
  simpa [h] using all c

theorem bitField_of_bitOf {c : Byte} {v : Bool} (h : bitOf c = some v) : bitField v = c := by
  have all : ∀ c : Byte, ((bitOf c).map bitField).getD c = c := by decide
  simpa [h] using all c

theorem regField_of_regOf {c : Byte} {r : BitVec 2} (h : regOf c = some r) : regField r = c := by
  have all : ∀ c : Byte, ((regOf c).map regField).getD c = c := by decide
  simpa [h] using all c

end Sys2Proof
end

