-- ==== Sys2Proof/Laws/PerInstr.lean ====
section
/-! SUPPORT. Per command: its encoding is on its own row of 30_encoding.md R93. -/

namespace Sys2Proof

namespace Laws.EncodesOnRow

/-- The command's word, masked as its row of R93 says, is the row's value. -/
def Statement (i : Instr) : Prop := encode i &&& i.row.mask = i.row.fixed

theorem nop : Statement .nop := by unfold Statement; decide
theorem rst : Statement .rst := by unfold Statement; decide
theorem rdReg (r : BitVec 2) : Statement (.rdReg r) := by unfold Statement; revert r; decide
theorem trLeaf (idx : NodeIndex) (sym : Symbol) : Statement (.trLeaf idx sym) := by
  apply BitVec.eq_of_getLsbD_eq; intro i hi
  simp only [encode, Instr.row, BitVec.getLsbD_and, formatWord_getLsbD, symbolField_getLsbD]
  interval_cases i <;> simp
theorem trNode (idx left right : NodeIndex) : Statement (.trNode idx left right) := by
  apply BitVec.eq_of_getLsbD_eq; intro i hi
  simp only [encode, Instr.row, BitVec.getLsbD_and, formatWord_getLsbD]
  interval_cases i <;> simp
theorem setRoot (idx : NodeIndex) : Statement (.setRoot idx) := by unfold Statement; revert idx; decide
theorem ctClr (sym : Symbol) : Statement (.ctClr sym) := by unfold Statement; revert sym; decide
theorem ctNew (sym : Symbol) : Statement (.ctNew sym) := by unfold Statement; revert sym; decide
theorem ctBit (v : Bool) : Statement (.ctBit v) := by unfold Statement; revert v; decide
theorem pkBegin : Statement .pkBegin := by unfold Statement; decide
theorem pkSym (sym : Symbol) : Statement (.pkSym sym) := by unfold Statement; revert sym; decide
theorem pkChar (ch : Byte) : Statement (.pkChar ch) := by unfold Statement; revert ch; decide
theorem pkEnd : Statement .pkEnd := by unfold Statement; decide
theorem dkBegin (raw : Bool) : Statement (.dkBegin raw) := by unfold Statement; revert raw; decide
theorem dkByte (byte : Byte) : Statement (.dkByte byte) := by unfold Statement; revert byte; decide
theorem dkEnd : Statement .dkEnd := by unfold Statement; decide

end Laws.EncodesOnRow
end Sys2Proof
end

