-- ==== Sys2Proof/Laws/Stream.lean ====
section
/-! SUPPORT. The byte grouping of `pack` (42_pack.md R160) undone by the bits of the bytes, and how
`unpack` (43_unpack_decode.md R180) reads the first byte. -/

namespace Sys2Proof.Machine

/-- The bits of a byte built from eight bits are those bits (20_memory.md R63). -/
@[simp] theorem bitsOfByte_byteOfBits (b7 b6 b5 b4 b3 b2 b1 b0 : Bool) :
    bitsOfByte (byteOfBits b7 b6 b5 b4 b3 b2 b1 b0) = [b7, b6, b5, b4, b3, b2, b1, b0] := by
  cases b7 <;> cases b6 <;> cases b5 <;> cases b4 <;> cases b3 <;> cases b2 <;> cases b1 <;> cases b0 <;> rfl

@[simp] theorem bitsOfByte_length (y : Byte) : (bitsOfByte y).length = 8 := rfl

@[simp] theorem bitsOfBytes_nil : bitsOfBytes [] = [] := rfl

@[simp] theorem bitsOfBytes_cons (y : Byte) (ys : List Byte) : bitsOfBytes (y :: ys) = bitsOfByte y ++ bitsOfBytes ys := rfl

/-- Grouping a whole number of bytes loses no bit. -/
theorem bitsOfBytes_groupBytes (n : Nat) (B : Bits) (h : B.length = 8 * n) : bitsOfBytes (groupBytes B) = B := by
  induction n generalizing B with
  | zero => simp_all [groupBytes]
  | succ n ih =>
    match B, h with
    | b7 :: b6 :: b5 :: b4 :: b3 :: b2 :: b1 :: b0 :: rest, h =>
      simp only [List.length_cons] at h
      simp only [groupBytes, bitsOfBytes_cons, bitsOfByte_byteOfBits, ih rest (by omega)]
      rfl

/-- A whole number of bytes is grouped into that many bytes. -/
theorem groupBytes_length (n : Nat) (B : Bits) (h : B.length = 8 * n) : (groupBytes B).length = n := by
  induction n generalizing B with
  | zero => simp_all [groupBytes]
  | succ n ih =>
    match B, h with
    | b7 :: b6 :: b5 :: b4 :: b3 :: b2 :: b1 :: b0 :: rest, h =>
      simp only [List.length_cons] at h
      simp only [groupBytes, List.length_cons, ih rest (by omega)]

/-- The padding marker is 1 to 8 bits (42_pack.md R161). -/
@[simp] theorem marker_length (len : Nat) : (marker len).length = padding len := by
  simp [marker, padding]
  omega

/-- The first 1 of a byte, by cases over all 256: whether there is one, and what stands after it. -/
theorem headPayload_eq (y : Byte) : (bitsOfByte y).any id = decide (y ≠ 0#8) ∧
    (y ≠ 0#8 → headPayload y = (bitsOfByte y).drop ((bitsOfByte y).findIdx id + 1) ∧
      (bitsOfByte y).findIdx id + 1 ≤ 8) := by
  have all : ∀ f : Fin 256, (bitsOfByte (.ofFin f)).any id = decide (BitVec.ofFin f ≠ 0#8) ∧
      (BitVec.ofFin f ≠ 0#8 →
        headPayload (.ofFin f) = (bitsOfByte (.ofFin f)).drop ((bitsOfByte (.ofFin f)).findIdx id + 1) ∧
        (bitsOfByte (.ofFin f)).findIdx id + 1 ≤ 8) := by decide +kernel
  exact all y.toFin

/-- The first byte of a stream decides the marker alone (43_unpack_decode.md R181, R182). -/
theorem unpack_cons (y : Byte) (ys : List Byte) :
    unpack (y :: ys) = (headPayload y ++ bitsOfBytes ys, decide (y ≠ 0#8)) := by
  have h : (bitsOfByte y ++ bitsOfBytes ys).take 8 = bitsOfByte y := List.take_left' (bitsOfByte_length y)
  have hd : (bitsOfByte y ++ bitsOfBytes ys).drop 8 = bitsOfBytes ys := List.drop_left' (bitsOfByte_length y)
  obtain ⟨ha, hp⟩ := headPayload_eq y
  unfold unpack
  simp only [bitsOfBytes_cons, h, hd, ha]
  by_cases hy : y = 0#8
  · simp [hy, headPayload]
  · obtain ⟨he, hle⟩ := hp hy
    simp only [ne_eq, hy, not_false_eq_true, decide_true, if_true, he]
    rw [List.drop_append_of_le_length (by simpa using hle)]

end Sys2Proof.Machine
end

