-- ==== Sys2Proof/Tests/Slice0.lean ====
section
/-! SUPPORT. The model's own tests: ill-formed words refused row by row, the words of the spec's
encoding vectors (95_test_vectors.md CV1 to CV27), one step of each command on a small state with the
result the vectors give, and for every statement with hypotheses a witness that meets them. -/

namespace Sys2Proof.Tests

open Sys2Proof.Machine Sys2Proof.Claims

/-! Helpers. -/

/-- The state one word leaves. -/
def resultOf (w : Word) (s : State) : Option State :=
  match deliverWord w s with
  | .next t => some t
  | .fault _ => none
  | .refused _ => none

/-- The STATUS a word leaves. -/
def statusAfter (w : Word) (s : State) : Option Word := (resultOf w s).map (·.status)

/-- The DEC_OUT items a word leaves. -/
def decAfter (w : Word) (s : State) : Option (List Byte) := (resultOf w s).map (·.decOut)

/-- The BYTE_OUT items a word leaves. -/
def bytesAfter (w : Word) (s : State) : Option (List Byte) := (resultOf w s).map (·.byteOut)

/-- The RSP_OUT items a word leaves. -/
def rspAfter (w : Word) (s : State) : Option (List Word) := (resultOf w s).map (·.rspOut)

/-- The reset state, in an encode session with these bits. -/
def packing (bits : Bits) : State := { State.reset with mode := .pack, pbuf := bits }

/-- The reset state, in a raw session. -/
def rawDecoding (phase : Phase) : State := { State.reset with mode := .dec, phase := phase, raw := true }

/-- The tree memory of T1 (95_test_vectors.md): 0 Leaf(b), 1 Leaf(a), 2 Int(0,1). -/
def treeT1 : Table TrEntry := [(0, .leaf 98#7), (1, .leaf 97#7), (2, .int 0#8 1#8)]

/-- T1 loaded with ROOT = 2, in IDLE. -/
def loadedT1 : State := { State.reset with tr := treeT1, root := 2#8 }

/-- A symbol session on T1. -/
def decodingT1 (phase : Phase) : State := { loadedT1 with mode := .dec, phase := phase, cur := 2#8 }

/-- A symbol session on FA7's tree, whose entry 1 was never written. -/
def decodingHole : State :=
  { State.reset with tr := [(0, .leaf 98#7), (2, .int 0#8 1#8)], root := 2#8, cur := 2#8, mode := .dec }

/-- The tree of T2, `"xyzz"`, loaded in IDLE: 0 x, 1 y, 2 z, 3 Int(0,1), 4 Int(2,3). -/
def loadedT2 : State :=
  { State.reset with
    tr := [(0, .leaf 120#7), (1, .leaf 121#7), (2, .leaf 122#7), (3, .int 0#8 1#8), (4, .int 2#8 3#8)]
    root := 4#8 }

/-- A symbol session on T2, past its first byte. -/
def decodingT2 (cur : NodeIndex) : State := { loadedT2 with cur := cur, mode := .dec, phase := .body }

/-- The state after FA11: a fault in IDLE, E_SEQ of PK_SYM. -/
def faulted : State :=
  { State.reset with mode := .fault, err := 0x20#8, fcause := 6#4, finfo := 0xA0#8 }

/-- The tree of T1 as a value. -/
def rootT1 : TreeNode := .node 1 (.leaf 98#7 0) (.leaf 97#7 1)

/-- The tree of T2 as a value. -/
def rootT2 : TreeNode :=
  .node 1 (.leaf 122#7 (1 / 2)) (.node (1 / 2) (.leaf 120#7 (1 / 4)) (.leaf 121#7 (1 / 4)))

/-- One code, of `'a'`: "1". -/
def codeA : Table Bits := [(97, [true])]

/-! WellFormed: an ill-formed word for each row of R93 is refused (CV18 to CV27 among them). -/

theorem test_ill_formed_words :
    [0x00000001#32, 0x10000001#32, 0x20000004#32, 0x30010000#32, 0x4FFFFFFF#32, 0x50000100#32,
      0x60000080#32, 0x70100061#32, 0x80000002#32, 0x90000001#32, 0xA0000080#32, 0xB0000131#32,
      0xC8000000#32, 0xD0000002#32, 0xE00100B7#32, 0xF0000001#32].all
        (fun w => !wellFormedWord w && (decode w).isNone) = true := by decide

/-- Every single must-be-zero bit of TR_LEAF's word, set alone, makes it ill-formed (R93). -/
theorem test_ill_formed_trLeaf_bits :
    ([7, 8, 9, 10, 11, 12, 13, 14, 15, 16, 17, 18, 19].all
      fun k => !wellFormedWord (0x3FF0007F#32 ||| 1#32 <<< (k : Nat))) = true := by decide

theorem test_well_formed_words :
    [0x00000000#32, 0x3FF0007F#32, 0x4FF0FFFF#32, 0xE00000B7#32].all wellFormedWord = true := by decide

/-! Decoding: a word of the spec for every command (CV1 to CV17). -/

theorem test_decode_nop : decode 0x00000000#32 = some .nop := by decide
theorem test_decode_rst : decode 0x10000000#32 = some .rst := by decide
theorem test_decode_rdReg : decode 0x20000003#32 = some (.rdReg 3#2) := by decide
theorem test_decode_trLeaf : decode 0x3FF0007F#32 = some (.trLeaf 255#8 127#7) := by decide
theorem test_decode_trNode : decode 0x40200001#32 = some (.trNode 2#8 0#8 1#8) := by decide
theorem test_decode_setRoot : decode 0x500000FF#32 = some (.setRoot 255#8) := by decide
theorem test_decode_ctClr : decode 0x6000007F#32 = some (.ctClr 127#7) := by decide
theorem test_decode_ctNew : decode 0x70000061#32 = some (.ctNew 97#7) := by decide
theorem test_decode_ctBit : decode 0x80000001#32 = some (.ctBit true) := by decide
theorem test_decode_pkBegin : decode 0x90000000#32 = some .pkBegin := by decide
theorem test_decode_pkSym : decode 0xA0000061#32 = some (.pkSym 97#7) := by decide
theorem test_decode_pkChar : decode 0xB0000031#32 = some (.pkChar 0x31#8) := by decide
theorem test_decode_pkEnd : decode 0xC0000000#32 = some .pkEnd := by decide
theorem test_decode_dkBegin : decode 0xD0000001#32 = some (.dkBegin true) := by decide
theorem test_decode_dkByte : decode 0xE00000B7#32 = some (.dkByte 0xB7#8) := by decide
theorem test_decode_dkEnd : decode 0xF0000000#32 = some .dkEnd := by decide
theorem test_decode_illegal : decode 0xA0000080#32 = none ∧ decode 0x30010000#32 = none := by decide

/-- The host's entry points: the table word decodes, and the next step runs it (SY1). -/
theorem test_withFetchWord : decodeTableWord 32 0x20000003 = some (.rdReg 3#2) ∧
    step (State.reset.withFetchWord 32 0x20000003) =
      .next { State.reset with rspOut := [0x48425001#32] } := ⟨by decide, rfl⟩

/-! One step of each command, against the vectors of 95_test_vectors.md section 4. -/

/-- R200's example: NOP in PACK leaves everything. -/
theorem test_nop_in_pack : resultOf 0x00000000#32 (packing [true]) = some (packing [true]) := by decide
/-- FA1: RST leaves FAULT and the record; items stay (R201). -/
theorem test_rst : resultOf 0x10000000#32 { faulted with byteOut := [0x1E#8] } =
    some { State.reset with byteOut := [0x1E#8] } := by decide
/-- FA16: STATUS read in FAULT. -/
theorem test_rdReg_status : rspAfter 0x20000000#32 faulted = some [0xA0062003#32] := by decide
/-- R38: WALK. -/
theorem test_rdReg_walk : rspAfter 0x20000002#32 { State.reset with ctsel := 97#7, root := 8#8, cur := 7#8 } =
    some [0x00610807#32] := by decide
/-- TL13: inside a session E_SEQ with FINFO 0x30. -/
theorem test_trLeaf_in_session : statusAfter 0x30000061#32 (rawDecoding .head) = some 0x3006200B#32 := by decide
/-- TL2. -/
theorem test_trNode : (resultOf 0x40200001#32 State.reset).map (·.readTr 2#8) = some (some (.int 0#8 1#8)) := by decide
/-- TL11: an entry is overwritten, and its neighbours stay. -/
theorem test_trLeaf_overwrites : (resultOf 0x30100063#32 loadedT1).map (·.tr) =
    some [(0, .leaf 98#7), (1, .leaf 99#7), (2, .int 0#8 1#8)] := by decide
/-- TL3. -/
theorem test_setRoot : (resultOf 0x50000002#32 State.reset).map (fun t => (t.root, t.cur, t.walkReg)) =
    some (2#8, 0#8, 0x00000200#32) := by decide
/-- TL7: CT_CLR keeps CTSEL. -/
theorem test_ctClr : (resultOf 0x60000061#32 { State.reset with ct := codeA, ctsel := 97#7 }).map
    (fun t => (t.ct, t.ctsel)) = some ([], 97#7) := by decide
/-- TL10: CT_NEW on a present entry; TL12: inside a session. -/
theorem test_ctNew : (resultOf 0x70000061#32 { State.reset with ct := codeA }).map (fun t => (t.ct, t.walkReg)) =
    some ([(97, [])], 0x00610000#32) := by decide
theorem test_ctNew_in_session : statusAfter 0x70000062#32 (packing []) = some 0x70062003#32 := by decide
/-- TL5's last bit; TL6. -/
theorem test_ctBit : (resultOf 0x80000000#32 { State.reset with ct := [(98, [true, true])], ctsel := 98#7 }).map (·.ct) =
    some [(98, [true, true, false])] := by decide
theorem test_ctBit_absent : statusAfter 0x80000001#32 State.reset = some 0x80062003#32 := by decide
/-- PA1; PK_BEGIN discards the old bits (R165). -/
theorem test_pkBegin : statusAfter 0x90000000#32 State.reset = some 0x00000001#32 := by decide
theorem test_pkBegin_discards : (resultOf 0x90000000#32 { State.reset with pbuf := [true], done := true }).map
    (fun t => (t.pbuf, t.done)) = some ([], false) := by decide
/-- R166's example; PA11. -/
theorem test_pkSym : (resultOf 0xA0000061#32 { packing [true, true] with ct := codeA }).map (·.pbuf) =
    some [true, true, true] := by decide
theorem test_pkSym_full :
    (resultOf 0xA0000061#32 { packing [true, true, true] with ct := [(97, [true, true])], pbufBits := 4 }).map
      (fun t => (t.status, t.plen)) = some (0x61088003#32, 3#32) := by decide
/-- R168's `'1'`; PA12: E_BITCHAR before E_OVERFLOW. -/
theorem test_pkChar : (resultOf 0xB0000031#32 (packing [false])).map (·.pbuf) = some [false, true] := by decide
theorem test_pkChar_order : statusAfter 0xB0000041#32 { packing [true] with pbufBits := 1 } =
    some 0x41010103#32 := by decide
/-- PA3; PA2. -/
theorem test_pkEnd : bytesAfter 0xC0000000#32 (packing [true, true, true, false]) = some [0x1E#8] := by decide
theorem test_pkEnd_empty : (resultOf 0xC0000000#32 (packing [])).map (fun t => (t.byteOut, t.status)) =
    some ([0x01#8], 0x00000010#32) := by decide
/-- DE1; FA8. -/
theorem test_dkBegin_raw : statusAfter 0xD0000001#32 State.reset = some 0x0000000A#32 := by decide
theorem test_dkBegin_leaf_root : statusAfter 0xD0000000#32 { State.reset with tr := [(0, .leaf 98#7)] } =
    some 0x00051003#32 := by decide
/-- T1: the payload of 0x1E, 1110, is "aaab"; FA3. -/
theorem test_dkByte_symbols : decAfter 0xE000001E#32 (decodingT1 .head) = some [0x61#8, 0x61#8, 0x61#8, 0x62#8] := by decide
theorem test_dkByte_noMark : statusAfter 0xE0000000#32 (rawDecoding .head) = some 0x0003040E#32 := by decide
/-- R189 on T2's tree: E_MIDWALK with FINFO 3; FA3's end. -/
theorem test_dkEnd_midWalk : statusAfter 0xF0000000#32 (decodingT2 3#8) = some 0x03040807#32 := by decide
theorem test_dkEnd_after_noMark :
    statusAfter 0xF0000000#32 { rawDecoding .body with err := 4#8, fcause := 3#4 } = some 0x0003040F#32 := by decide
/-- CV19: E_ILLEGAL wins over E_SEQ; FA16: an illegal word in FAULT does nothing. -/
theorem test_illegal : statusAfter 0xA0000080#32 State.reset = some 0xA0074003#32 := by decide
theorem test_fault_filter : resultOf 0xA0000080#32 faulted = some faulted ∧ resultOf 0x90000000#32 faulted = some faulted := by decide

/-! The functions, against 95_test_vectors.md sections 2 and 3. -/

/-- PK1, PK4, PK6, PK9. -/
theorem test_pack : pack [] = [0x01#8] ∧ pack (List.replicate 7 false) = [0x80#8] ∧
    pack [true, false, true, true, false, false, true, false] = [0x01#8, 0xB2#8] ∧
    pack [true, false, true, true, false, false, true, false, true] = [0x03#8, 0x65#8] := by decide
/-- UN1, UN3, UN5, UN8. -/
theorem test_unpack : unpack [0x00#8] = ([], false) ∧
    unpack [0x00#8, 0xA5#8] = ([true, false, true, false, false, true, false, true], false) ∧
    unpack [0xFF#8] = (List.replicate 7 true, true) ∧ unpack [] = ([], false) := by decide
/-- T1's codes, its bits and its byte. -/
theorem test_codes_T1 : rootT1.codes = [(97, [true]), (98, [false])] ∧
    encodeText [97#7, 97#7, 97#7, 98#7] rootT1.codes = .ok [0x1E#8] := ⟨rfl, rfl⟩
/-- T2, D0's scenario S3: at the tie of pass 2 Source wins, and the first selected is the left child. -/
theorem test_build_T2 : treeOf .firstOccurrence [120#7, 121#7, 122#7, 122#7] = .ok rootT2 := by decide +kernel
/-- T8, `"mississippi"`: a tree whose node 5 has an internal left child and a leaf right child. -/
theorem test_image_T8 : (freqList .firstOccurrence
      [109#7, 105#7, 115#7, 115#7, 105#7, 115#7, 115#7, 105#7, 112#7, 112#7, 105#7]).toOption.bind trImage =
    some [.trLeaf 0#8 0x6D#7, .trLeaf 1#8 0x70#7, .trLeaf 2#8 0x69#7, .trLeaf 3#8 0x73#7, .trNode 4#8 0#8 1#8,
      .trNode 5#8 4#8 2#8, .trNode 6#8 3#8 5#8, .setRoot 6#8] := by decide +kernel
/-- R138: CT_CLR for a symbol an earlier session set. -/
theorem test_ctImage : ctImage [97#7, 98#7, 99#7] codeA = [.ctNew 97#7, .ctBit true, .ctClr 98#7, .ctClr 99#7] := by
  decide +kernel
/-- R142: a source that fails before its end gives no list. -/
theorem test_frequencyTable_failure :
    frequencyTable .firstOccurrence [some 97#7, none, some 98#7] = .error .sourceFailure := by decide

/-! Witnesses: for each statement with hypotheses, a state and operands that meet them, clause by clause. -/

/-- The word of the same opcode that R93 refuses, the mode that admits, one that does not, and FAULT:
what the clauses of a session command assume. -/
abbrev SessionWitness (word mask bad : Word) (home other : State) : Prop :=
  (bad &&& 0xF0000000#32 = word &&& 0xF0000000#32 ∧ bad &&& mask ≠ word &&& mask) ∧
  (other.mode ≠ home.mode ∧ other.mode ≠ .fault) ∧ faulted.mode = .fault

theorem witness_NopRule : (0x00000001#32 &&& 0xF0000000#32 = 0x00000000#32 &&& 0xF0000000#32) ∧
    0x00000001#32 &&& 0xFFFFFFFF#32 ≠ 0x00000000#32 &&& 0xFFFFFFFF#32 := by decide
theorem witness_RstRule : (0x10000001#32 &&& 0xF0000000#32 = 0x10000000#32 &&& 0xF0000000#32) ∧
    0x10000001#32 &&& 0xFFFFFFFF#32 ≠ 0x10000000#32 &&& 0xFFFFFFFF#32 := by decide
theorem witness_RdRegRule : (0x20000004#32 &&& 0xF0000000#32 = 0x20000003#32 &&& 0xF0000000#32) ∧
    0x20000004#32 &&& 0xFFFFFFFC#32 ≠ 0x20000003#32 &&& 0xFFFFFFFC#32 := by decide
theorem witness_TrLeafRule :
    SessionWitness 0x30100061#32 0xF00FFF80#32 0x30010000#32 State.reset (packing []) := by decide
theorem witness_TrNodeRule :
    SessionWitness 0x40200001#32 0xF00F0000#32 0x4FFFFFFF#32 State.reset (rawDecoding .head) := by decide
theorem witness_SetRootRule :
    SessionWitness 0x500000FF#32 0xFFFFFF00#32 0x50000100#32 State.reset (packing []) := by decide
theorem witness_CtClrRule :
    SessionWitness 0x6000007F#32 0xFFFFFF80#32 0x60000080#32 State.reset (packing []) := by decide
theorem witness_CtNewRule :
    SessionWitness 0x70000061#32 0xFFFFFF80#32 0x70100061#32 State.reset (rawDecoding .body) := by decide
theorem witness_CtBitRule :
    SessionWitness 0x80000001#32 0xFFFFFFFE#32 0x80000002#32 State.reset (packing []) := by decide
theorem witness_PkBeginRule :
    SessionWitness 0x90000000#32 0xFFFFFFFF#32 0x90000001#32 State.reset (packing []) := by decide
theorem witness_PkSymRule :
    SessionWitness 0xA0000061#32 0xFFFFFF80#32 0xA0000080#32 (packing []) State.reset := by decide
theorem witness_PkCharRule :
    SessionWitness 0xB0000031#32 0xFFFFFF00#32 0xB0000131#32 (packing []) (rawDecoding .head) := by decide
theorem witness_PkEndRule :
    SessionWitness 0xC0000000#32 0xFFFFFFFF#32 0xC8000000#32 (packing []) State.reset := by decide
theorem witness_DkBeginRule :
    SessionWitness 0xD0000001#32 0xFFFFFFFE#32 0xD0000002#32 State.reset (packing []) := by decide
theorem witness_DkByteRule :
    SessionWitness 0xE00000B7#32 0xFFFFFF00#32 0xE00100B7#32 (rawDecoding .head) State.reset := by decide
theorem witness_DkEndRule :
    SessionWitness 0xF0000000#32 0xFFFFFFFF#32 0xF0000001#32 (rawDecoding .body) (packing []) := by decide

/-- CT_BIT's three cases: absent, full (127 bits), one bit short of full. -/
theorem witness_CtBitRule_cases : State.reset.readCt State.reset.ctsel = none ∧
    ({ State.reset with ct := [(0, List.replicate 127 true)] } : State).readCt 0#7 = some (List.replicate 127 true) ∧
    (List.replicate 127 true).length = 127 ∧ (List.replicate 126 true).length ≠ 127 := by
  refine ⟨rfl, rfl, ?_, ?_⟩ <;> simp
/-- PK_SYM's three cases, at the capacity's edge. -/
theorem witness_PkSymRule_cases : (packing []).readCt 97#7 = none ∧
    ({ packing [true] with ct := codeA, pbufBits := 1 } : State).readCt 97#7 = some [true] ∧
    [true].length + [true].length > 1 ∧ ¬ [true].length + [true].length > 2 := by decide
/-- PK_CHAR's cases: the neighbours of the two characters, and the capacity's edge. -/
theorem witness_PkCharRule_cases : ((0x2F#8 ≠ 0x30#8 ∧ 0x2F#8 ≠ 0x31#8) ∧ (0x32#8 ≠ 0x30#8 ∧ 0x32#8 ≠ 0x31#8)) ∧
    ¬ (0x30#8 ≠ 0x30#8 ∧ 0x30#8 ≠ 0x31#8) ∧
    (packing [true]).pbuf.length + 1 > 1 ∧ ¬ (packing [true]).pbuf.length + 1 > 2 := by decide
/-- DK_BEGIN 0's two cases. -/
theorem witness_DkBeginRule_cases : State.reset.readTr State.reset.root = none ∧
    loadedT1.readTr loadedT1.root = some (.int 0#8 1#8) := by decide
/-- DK_BYTE's cases: no marker; raw; a symbol walk that goes on; one that meets an invalid entry. -/
theorem witness_DkByteRule_cases : (rawDecoding .head).phase = .head ∧ (rawDecoding .body).raw = true ∧
    ((decodingT1 .head).raw = false ∧ (decodingT1 .head).internalAt (decodingT1 .head).cur ∧
      (decodingT1 .head).internalAt (decodingT1 .head).root ∧
      (walkIndex (decodingT1 .head).readTr 2#8 2#8 (payloadOf .head 0x1E#8)).2.2 = none) ∧
    decodingHole.internalAt decodingHole.cur ∧ decodingHole.internalAt decodingHole.root ∧
    (walkIndex decodingHole.readTr 2#8 2#8 (payloadOf .head 0x1E#8)).2.2 = some 1#8 := by decide
/-- The walk's three cases: a leaf, an invalid entry, an internal node. -/
theorem witness_WalkStepRule : (decodingT1 .body).readTr 2#8 = some (.int 0#8 1#8) ∧
    (decodingT1 .body).readTr 1#8 = some (.leaf 97#7) ∧
    (decodingHole.readTr 2#8 = some (.int 0#8 1#8) ∧ decodingHole.readTr 1#8 = none) ∧
    (decodingT2 4#8).readTr 4#8 = some (.int 2#8 3#8) ∧ (decodingT2 4#8).readTr 3#8 = some (.int 0#8 1#8) := by
  decide
/-- DK_END's four cases, in states of R30 (g): PHASE = BODY, or CUR = ROOT. -/
theorem witness_DkEndRule_cases : ((decodingT2 3#8).phase = .body ∧ (decodingT2 3#8).raw = false ∧
      (decodingT2 3#8).cur ≠ (decodingT2 3#8).root) ∧
    ((rawDecoding .head).phase = .head ∧ (rawDecoding .head).cur = (rawDecoding .head).root) ∧
    (decodingT1 .body).cur = (decodingT1 .body).root ∧ (decodingT1 .body).phase ≠ .head ∧
    (decodingT1 .body).err = 0#8 ∧ ({ rawDecoding .body with err := 4#8 } : State).err ≠ 0#8 := by decide

theorem witness_ResetLeavesResetState :
    ({ faulted with cmdIn := [.reset] } : State).cmdIn = .reset :: [] := rfl
theorem witness_ResetKeepsOutputTraces :
    ({ State.reset with byteOut := [0x1E#8], cmdIn := [.reset, .word 0#32] } : State).cmdIn =
      .reset :: [.word 0#32] := rfl
theorem witness_DataInv : State.reset.DataInv :=
  ⟨by decide, by decide, by decide, by decide, by decide⟩
theorem witness_RegisterViews : ({ State.reset with pbuf := [true] } : State).DataInv :=
  ⟨by decide, by decide, by decide, by decide, by decide⟩
/-- Fault entry as the first fault, as a later one, and with every cause but E_NOMARK's exception. -/
theorem witness_FaultEntryRule : State.reset.fcause = 0#4 ∧ faulted.fcause ≠ 0#4 ∧
    Cause.overflow ≠ .noMark ∧ Cause.bitChar ≠ .noMark := by decide
/-- In FAULT: a word that is neither RST nor RD_REG, as a word and as the next input. -/
theorem witness_FaultModeFilter : faulted.mode = .fault ∧
    (0x90000000#32 ≠ 0x10000000#32 ∧ 0x90000000#32 &&& 0xFFFFFFFC#32 ≠ 0x20000000#32) ∧
    ({ faulted with cmdIn := [.word 0x90000000#32] } : State).mode = .fault ∧
    NoReset { faulted with cmdIn := [.word 0x90000000#32] } ∧
    step { faulted with cmdIn := [.word 0x90000000#32] } = .next faulted := by
  refine ⟨rfl, by decide, rfl, ?_, rfl⟩
  intro x rest h
  cases h
  decide
theorem witness_IllegalWordRule : wellFormedWord 0xA0000080#32 = false ∧ State.reset.mode ≠ .fault ∧
    faulted.mode = .fault := by decide
/-- A mode that admits, one that does not, and FAULT, for a command of each kind. -/
theorem witness_ModeTransitionTable : modeAfter .pkBegin State.reset.mode = some .pack ∧
    modeAfter .pkEnd State.reset.mode = none ∧ State.reset.mode ≠ .fault ∧ faulted.mode = .fault := by decide
theorem witness_DecodeEncodeAgree : decode 0x3FF0007F#32 = some (.trLeaf 255#8 127#7) ∧
    decode 0xA0000080#32 = none ∧ wellFormedWord 0xA0000080#32 = false := by decide
theorem witness_WordRowsDisjoint :
    Instr.row (.trNode 0 0 0) ∈ wordRows ∧ (Instr.row (.trNode 0 0 0)).accepts 0x4FF0FFFF#32 = true := by decide
theorem witness_StepRunsTheCommand :
    ({ State.reset with cmdIn := [.word 0x90000000#32] } : State).cmdIn = .word 0x90000000#32 :: [] ∧
    decode 0x90000000#32 = some .pkBegin := by decide
theorem witness_StepWaitsForInput : State.reset.cmdIn = [] := rfl

/-- A decode session after E_NOMARK, the most marked state the invariants allow. -/
def marked : State := { rawDecoding .body with err := 4#8, fcause := 3#4, cmdIn := [.word 0xF0000000#32] }

theorem witness_SessionInvariantKept : marked.SessionInv ∧ ∃ t, step marked = .next t :=
  ⟨⟨by decide, by decide, by decide, by decide, by decide, by decide, by decide⟩, _, rfl⟩
/-- A symbol session, where invariant (f) says something. -/
theorem witness_SessionInvariantKept_symbols : (decodingT1 .head).SessionInv :=
  ⟨by decide, by decide, by decide, by decide, by decide, by decide, by decide⟩
theorem witness_Reachable : Reachable { State.reset with mode := .pack } :=
  ⟨[.word 0x90000000#32], 65536, 1, by decide, by decide, rfl⟩
theorem witness_FaultRecordInvariantKept : marked.SessionInv ∧ marked.RecordInv ∧ ∃ t, step marked = .next t :=
  ⟨witness_SessionInvariantKept.1,
    ⟨.inr (.inl ⟨.noMark, by decide⟩), fun _ => ⟨.noMark, by decide⟩, by decide, by decide⟩, _, rfl⟩
/-- Two flags: E_NOMARK and then E_MIDWALK (FA6). -/
theorem witness_FaultRecordInvariantKept_two :
    ({ State.reset with mode := .fault, err := 0x0C#8, fcause := 3#4 } : State).RecordInv :=
  ⟨.inr (.inr ⟨.midWalk, by decide, by decide⟩), fun _ => ⟨.noMark, by decide⟩, by decide, by decide⟩
/-- Tables with entries at both ends, PBUF at its capacity. -/
theorem witness_DataInvariantKept :
    ({ State.reset with
        tr := [(0, .leaf 98#7), (255, .leaf 97#7)], ct := [(0, []), (127, [true])]
        pbuf := [true], pbufBits := 1 } : State).DataInv :=
  ⟨by decide, by decide, by decide, by decide, by decide⟩
theorem witness_DataInvariantAtReset : (1 ≤ 1 ∧ 1 ≤ 4294967295) ∧ 1 ≤ 4294967295 ∧ 4294967295 ≤ 4294967295 := by
  decide
/-- A set flag and a recorded fault, before a step that is no reset. -/
theorem witness_FaultRecordSticky : NoReset marked ∧ marked.err.getLsbD 2 = true ∧ marked.fcause ≠ 0#4 ∧
    ∃ t, step marked = .next t := by
  refine ⟨?_, by decide, by decide, _, rfl⟩
  intro x rest h
  cases h
  decide
/-- A step that appends to each stream. -/
theorem witness_OutputsAppendOnly :
    step { packing [] with cmdIn := [.word 0xC0000000#32] } =
      .next { State.reset with done := true, byteOut := [] ++ [0x01#8] } ∧
    step { rawDecoding .head with cmdIn := [.word 0xE0000002#32] } =
      .next { rawDecoding .body with decOut := [] ++ [0x80#8] } ∧
    step { State.reset with cmdIn := [.word 0x20000003#32] } =
      .next { State.reset with rspOut := [] ++ [0x48425001#32] } := ⟨rfl, rfl, rfl⟩
/-- Eight items in one step, raw; and symbols from one byte. -/
theorem witness_DecodedItemsInRange : (rawDecoding .body).raw = true ∧
    step { rawDecoding .body with cmdIn := [.word 0xE00000FF#32] } =
      .next { rawDecoding .body with decOut := [] ++ List.replicate 8 0x81#8 } ∧
    (decodingT1 .body).raw = false ∧
    step { decodingT1 .body with cmdIn := [.word 0xE00000FF#32] } =
      .next { decodingT1 .body with decOut := [] ++ List.replicate 8 0x61#8 } := ⟨rfl, rfl, rfl, rfl⟩
/-- A table command inside a session. -/
theorem witness_TablesFixedInSession :
    NoReset { packing [] with cmdIn := [.word 0x70000062#32] } ∧ (packing []).mode ≠ .idle ∧
    ∃ t, step { packing [] with cmdIn := [.word 0x70000062#32] } = .next t := by
  refine ⟨?_, by decide, _, rfl⟩
  intro x rest h
  cases h
  decide
/-- A step that changes each kind of component. -/
theorem witness_WritesOnlyWhatIsListed :
    ((resultOf 0x30100061#32 State.reset).map (·.tr) ≠ some State.reset.tr) ∧
    ((resultOf 0x50000002#32 State.reset).map (·.root) ≠ some State.reset.root) ∧
    ((resultOf 0x70000061#32 State.reset).map (fun t => (t.ct, t.ctsel)) ≠ some (State.reset.ct, State.reset.ctsel)) ∧
    ((resultOf 0xB0000031#32 (packing [])).map (·.pbuf) ≠ some (packing []).pbuf) ∧
    ((resultOf 0xD0000001#32 State.reset).map (·.raw) ≠ some State.reset.raw) ∧
    ((resultOf 0xE0000001#32 (rawDecoding .head)).map (·.phase) ≠ some Phase.head) ∧
    ((resultOf 0xC0000000#32 (packing [])).map (·.byteOut) ≠ some []) ∧
    ((resultOf 0x20000003#32 State.reset).map (·.rspOut) ≠ some []) := by decide
theorem witness_NoGoodEndAfterFault : marked.err ≠ 0#8 ∧ NoReset marked ∧ ∃ t, step marked = .next t :=
  ⟨by decide, witness_FaultRecordSticky.1, _, rfl⟩

/-- The marker at both ends of the first byte. -/
theorem witness_UnpackRule : 0x01#8 ≠ 0#8 ∧ 0xFF#8 ≠ 0#8 ∧ unpack [0x01#8, 0x80#8] = (bitsOfByte 0x80#8, true) := by
  decide
theorem witness_PackAfterUnpack : 0x03#8 ≠ 0#8 ∧ pack (unpack [0x03#8, 0x65#8]).1 = [0x03#8, 0x65#8] := by decide
theorem witness_PackConsequences : pack [true] = pack [true] ∧ pack [false] ≠ pack [] := by decide

/-- An encode session whose codes exist and fit; one at the capacity's edge that does not; a missing code. -/
theorem witness_EncodeSessionComputesEncode : State.reset.mode = .idle ∧ State.reset.err = 0#8 ∧
    concatCodes codeA [97#7, 97#7] = .ok [true, true] ∧ ([true, true].length ≤ 2 ∧ ¬ [true, true].length ≤ 1) ∧
    concatCodes codeA [97#7, 98#7] = .error (.missingCode 98#7) := ⟨rfl, rfl, rfl, by decide, rfl⟩
theorem witness_RawSessionComputesUnpack : State.reset.mode = .idle ∧ State.reset.err = 0#8 ∧
    (unpack [0x1E#8]).2 = true ∧ (unpack [0x00#8, 0xA5#8]).2 = false ∧ (unpack []).2 = false := by decide
theorem witness_holds : loadedT1.holds loadedT1.root rootT1 := ⟨0#8, 1#8, rfl, rfl, rfl⟩
/-- A symbol session that ends well, one without a marker; and on T2's tree one that ends inside a code. -/
theorem witness_SymbolSessionComputesDecode : loadedT1.mode = .idle ∧ loadedT1.err = 0#8 ∧ rootT1.isNode = true ∧
    loadedT1.holds loadedT1.root rootT1 ∧ decodeBytes [0x1E#8] rootT1 = .ok [97#7, 97#7, 97#7, 98#7] ∧
    decodeBytes [0x00#8] rootT1 = .error .noMarker := ⟨rfl, rfl, rfl, witness_holds, by decide, by decide⟩
theorem witness_SymbolSessionComputesDecode_midDescent : loadedT2.mode = .idle ∧ loadedT2.err = 0#8 ∧
    rootT2.isNode = true ∧ loadedT2.holds loadedT2.root rootT2 ∧
    decodeBytes [0x03#8] rootT2 = .error .endedMidDescent :=
  ⟨rfl, rfl, rfl, ⟨2#8, 3#8, rfl, rfl, 0#8, 1#8, rfl, rfl, rfl⟩, by decide +kernel⟩
/-- PBUF exactly at its capacity. -/
theorem witness_RawRoundTripThroughBlock : State.reset.mode = .idle ∧ State.reset.err = 0#8 ∧
    [true, false].length ≤ ({ State.reset with pbufBits := 2 } : State).pbufBits := by decide
theorem witness_DegenerateSources : (97#7 ∈ [97#7, 98#7] ∧ 98#7 ∈ [97#7, 98#7] ∧ 97#7 ≠ 98#7) ∧
    none ∈ ([some 97#7, none] : List (Option Symbol)) := by decide
theorem witness_BuilderShape :
    ([⟨some 97#7, 1⟩] : List SymbolFrequency).length < 2 ∧
    2 ≤ ([⟨some 98#7, 0⟩, ⟨some 97#7, 1⟩] : List SymbolFrequency).length ∧
    treeOf .firstOccurrence [97#7] = .ok rootT1 := by decide +kernel
/-- `select` at a tie and past it, and a pass of the loop. -/
theorem witness_BuilderShape_select :
    ((⟨0, .leaf 97#7 1⟩ : Item).probability ≤ (⟨1, .leaf 98#7 1⟩ : Item).probability) ∧
    ((⟨0, .leaf 97#7 1⟩ : Item).probability < (⟨1, .leaf 98#7 2⟩ : Item).probability) ∧
    ([⟨0, .leaf 97#7 1⟩, ⟨1, .leaf 98#7 1⟩] : List Item) ≠ [] ∧
    select [⟨0, .leaf 97#7 1⟩, ⟨1, .leaf 98#7 1⟩] [] = some (⟨0, .leaf 97#7 1⟩, [⟨1, .leaf 98#7 1⟩], []) ∧
    select [⟨1, .leaf 98#7 1⟩] [] = some (⟨1, .leaf 98#7 1⟩, [], []) := by decide +kernel
/-- Two leaves, and two codes of different symbols. -/
theorem witness_CodesPrefixFree : rootT1.isNode = true ∧ rootT1.leaves.Nodup ∧
    rootT1.codes.code 97#7 = some [true] ∧ rootT1.codes.code 98#7 = some [false] ∧ 97#7 ≠ 98#7 :=
  ⟨rfl, by decide, rfl, rfl, by decide⟩
theorem witness_DecodeAfterEncode : rootT1.isNode = true ∧ rootT1.leaves.Nodup ∧
    ∀ sym ∈ [97#7, 98#7, 97#7], sym ∈ rootT1.leaves := by decide
theorem witness_SourceRoundTrip : ([97#7] : List Symbol) ≠ [] := by decide
/-- The list of T4 (a synthetic `'b'` in front), its image and its tree. -/
theorem witness_TreeImageHoldsTree :
    ([⟨some 98#7, 0⟩, ⟨some 97#7, 1⟩] : List SymbolFrequency).length ≤ 128 ∧
    trImage [⟨some 98#7, 0⟩, ⟨some 97#7, 1⟩] =
      some [.trLeaf 0#8 98#7, .trLeaf 1#8 97#7, .trNode 2#8 0#8 1#8, .setRoot 2#8] ∧
    build [⟨some 98#7, 0⟩, ⟨some 97#7, 1⟩] = some rootT1 ∧ State.reset.mode = .idle := by
  decide +kernel
/-- A code to load, an entry of an earlier session to clear, and one that nothing set. -/
theorem witness_CodeImageLoadsTable :
    (∀ sym code, CodeTable.code codeA sym = some code → code.length ≤ 127) ∧
    ({ State.reset with ct := [(98, [false])] } : State).mode = .idle ∧
    CodeTable.code codeA 97#7 = some [true] ∧ (CodeTable.code codeA 98#7 = none ∧ 98#7 ∈ [98#7]) ∧
    (CodeTable.code codeA 99#7 = none ∧ 99#7 ∉ [98#7]) := by
  refine ⟨fun sym code h => ?_, rfl, rfl, by decide, by decide⟩
  simp only [CodeTable.code, codeA, Table.get] at h
  split at h
  · cases h
    decide
  · cases h
/-- Every entry that is present was set by an earlier session. -/
theorem witness_CodeImageLoadsTable_earlier :
    ∀ sym, ({ State.reset with ct := [(98, [false])] } : State).readCt sym ≠ none → sym ∈ [98#7] := by
  intro sym h
  simp only [State.readCt, Table.get] at h
  split at h
  · rename_i hs
    exact List.mem_singleton.2 (BitVec.eq_of_toNat_eq hs.symm)
  · exact absurd rfl h
theorem witness_FirstCommandsAfterReset : AtReset State.reset :=
  ⟨rfl, rfl, rfl, rfl, rfl, rfl, rfl, rfl, rfl, rfl, rfl, fun _ => rfl, fun _ => rfl, rfl, rfl, rfl, rfl⟩

end Sys2Proof.Tests
end

section
/-! SUPPORT. The statements about the state: its registers as views (10_state.md R35 to R38), its output
traces (R45, R52), its reset values (R50) and its session invariants (R30). -/

namespace Sys2Proof.Machine

open Sys2Proof.Claims

/-! Reasoning about a step, a command under the mode checks, and a run. -/

/-- The mode checks leave three cases to show: FAULT, where nothing happens, E_SEQ, and the command's own
rule in a mode that admits it. -/
theorem State.whenAdmitted_elim {P : State → Prop} {s : State} {i : Instr} {body : State → State}
    (ignored : P s) (seq : s.mode ≠ .fault → P (s.raise .seq (commandByte i)))
    (runs : admittedIn i s.mode = true → P (body s)) : P (s.whenAdmitted i body) := by
  obtain ⟨-, h⟩ | ⟨-, ha, h⟩ | ⟨hf, -, h⟩ := s.whenAdmitted_cases i body <;> rw [h]
  · exact ignored
  · exact runs ha
  · exact seq hf

/-- DK_END's end-of-stream checks, after E_NOMARK's (R189). -/
def State.endStream (s : State) : State :=
  if s.raw = false ∧ s.cur ≠ s.root then s.raise .midWalk s.cur
  else if s.err ≠ 0#8 then { s with mode := .fault }
  else { s with mode := .idle, done := true }

/-- A command's own rule, as it runs once the mode checks have let it (R90). `after_eq` ties it to `exec`. -/
def ownRule : Instr → State → State
  | .nop, s => s
  | .rst, s => s.resetBlock
  | .rdReg r, s => s.emitRsp (s.readReg r)
  | .trLeaf idx sym, s => s.writeTr idx (.leaf sym)
  | .trNode idx left right, s => s.writeTr idx (.int left right)
  | .setRoot idx, s => { s with root := idx }
  | .ctClr sym, s => s.clearCt sym
  | .ctNew sym, s => { s.writeCt sym [] with ctsel := sym }
  | .ctBit v, s =>
    match s.readCt s.ctsel with
    | none => s.raise .seq (commandByte (.ctBit v))
    | some code =>
      if code.length = Config.maxCode then s.raise .overflow (symbolItem s.ctsel)
      else s.writeCt s.ctsel (code ++ [v])
  | .pkBegin, s => { s with pbuf := [], done := false, mode := .pack }
  | .pkSym sym, s =>
    match s.readCt sym with
    | none => s.raise .missing (symbolItem sym)
    | some code => s.appendBits code (symbolItem sym)
  | .pkChar ch, s =>
    match charBit ch with
    | none => s.raise .bitChar ch
    | some v => s.appendBits [v] ch
  | .pkEnd, s => { s.emitBytes (pack s.pbuf) with done := true, mode := .idle }
  | .dkBegin raw, s =>
    if raw = false ∧ isInternal (s.readTr s.root) = false then s.raise .tree s.root
    else { s with raw := raw, phase := .head, cur := s.root, done := false, mode := .dec }
  | .dkByte byte, s =>
    match s.phase with
    | .body => s.feed (bitsOfByte byte)
    | .head =>
      if byte = 0#8 then { s with phase := .body }.raise .noMark 0#8
      else { s with phase := .body }.feed (headPayload byte)
  | .dkEnd, s => (if s.phase = .head then s.raise .noMark 0#8 else s).endStream

/-- A command runs its own rule: the three system commands, which FAULT admits too, without the mode
checks, every other command under them (R90, R98, R99). -/
theorem after_eq (i : Instr) (s : State) :
    after i s = if admittedIn i .fault then ownRule i s else s.whenAdmitted i (ownRule i) := by
  cases i <;> rfl

/-- What FAULT admits every mode admits: the three system commands (R98, R99). -/
theorem admittedIn_of_fault {i : Instr} (h : admittedIn i .fault = true) (m : Mode) : admittedIn i m = true := by
  cases i with
  | nop | rst | rdReg => rfl
  | _ => cases h

/-- Every command leaves three cases to show: nothing happens, E_SEQ, and its own rule in a mode that
admits it. -/
theorem after_elim {P : State → Prop} {i : Instr} {s : State} (ignored : P s)
    (seq : s.mode ≠ .fault → P (s.raise .seq (commandByte i)))
    (runs : admittedIn i s.mode = true → P (ownRule i s)) : P (after i s) := by
  rw [after_eq]
  split
  case isTrue hi => exact runs (admittedIn_of_fault hi s.mode)
  case isFalse => exact State.whenAdmitted_elim ignored seq runs

/-- What an illegal word can do (R96). -/
theorem illegalWord_elim {P : State → Prop} {s : State} {w : Word} (ignored : P s)
    (raises : s.mode ≠ .fault → P (s.raise .illegal (topByte w))) : P (illegalWord w s) := by
  unfold illegalWord
  split
  case isTrue => exact ignored
  case isFalse hf => exact raises hf

/-- A property is kept by every step when taking an input off the port, a reset, every command and the
fault of an illegal word keep it. -/
theorem step_keeps {P : State → Prop} (input : ∀ s q, P s → P { s with cmdIn := q })
    (reset : ∀ s, P s → P s.resetBlock) (command : ∀ i s, P s → P (after i s))
    (illegal : ∀ w s, P s → s.mode ≠ .fault → P (s.raise .illegal (topByte w))) {s t : State} (hs : P s)
    (h : step s = .next t) : P t := by
  have hq (q) : P { s with cmdIn := q } := input s q hs
  obtain ⟨-, e⟩ | ⟨rest, -, e⟩ | ⟨w, rest, i, -, -, e⟩ | ⟨w, rest, -, -, e⟩ := step_cases s <;>
    rw [e] at h <;> cases h
  · exact hs
  · exact reset _ (hq rest)
  · exact command i _ (hq rest)
  · exact illegalWord_elim (hq rest) (illegal w _ (hq rest))

/-- A run of `k + 1` steps is a step and a run of `k`. -/
theorem run_succ_of_step (M : Host.Core) {s u : M.State} (h : M.step s = .next u) (k : Nat) :
    M.run (k + 1) s = M.run k u := by
  simp only [Host.Core.run, h]

/-- A property that every step keeps is kept by a run of any length. -/
theorem run_keeps {P : State → Prop} (keeps : ∀ s t, P s → step s = .next t → P t) {k : Nat} :
    ∀ {s t : State}, P s → core.run k s = .next t → P t := by
  induction k with
  | zero =>
    intro s t hs h
    cases h
    exact hs
  | succ k ih =>
    intro s t hs h
    obtain ⟨u, hu⟩ : ∃ u, step s = .next u := by
      obtain ⟨-, e⟩ | ⟨_, -, e⟩ | ⟨_, _, _, -, -, e⟩ | ⟨_, _, -, -, e⟩ := step_cases s <;> exact ⟨_, e⟩
    exact ih (keeps s u hs hu) (run_succ_of_step core hu k ▸ h)

/-- A property of the states a run starts in that every step keeps holds of every reachable state. -/
theorem reachable_induction {P : State → Prop}
    (start : ∀ inputs capacity, 1 ≤ capacity → capacity ≤ Config.pbufBitsMax →
      P { State.reset with cmdIn := inputs, pbufBits := capacity })
    (keeps : ∀ s t, P s → step s = .next t → P t) {t : State} (h : Reachable t) : P t := by
  obtain ⟨inputs, capacity, k, hlow, hhigh, hrun⟩ := h
  exact run_keeps keeps (start inputs capacity hlow hhigh) hrun

/-- Appending to PBUF appends, or raises E_OVERFLOW (R166, R168). -/
theorem State.appendBits_elim {P : State → Prop} {s : State} {bits : Bits} {info : Byte}
    (overflow : P (s.raise .overflow info)) (appended : P { s with pbuf := s.pbuf ++ bits }) :
    P (s.appendBits bits info) := by
  unfold State.appendBits
  split
  · exact overflow
  · exact appended

/-! The session invariants (R30), by mode. -/

/-- In FAULT they say that a fault is recorded and DONE is 0. -/
theorem State.sessionInv_of_fault {t : State} (hm : t.mode = .fault) (he : t.err ≠ 0#8)
    (hf : t.fcause ≠ 0#4) (hd : t.done = false) : t.SessionInv where
  quiet := by simp [hm]
  decoding := by simp [hm]
  doneWell := by simp [hd]
  recorded := by simp [hf, he]
  faulted _ := he
  walking := by simp [hm]
  atHead := by simp [hm]

/-- In IDLE and PACK they say that no fault is recorded, and in PACK that DONE is 0. -/
theorem State.sessionInv_of_quiet {t : State} (hm : t.mode = .idle ∨ t.mode = .pack) (he : t.err = 0#8)
    (hf : t.fcause = 0#4) (hd : t.done = true → t.mode = .idle) : t.SessionInv := by
  have hdec : t.mode ≠ .dec := by rcases hm with hm | hm <;> simp [hm]
  have hfault : t.mode ≠ .fault := by rcases hm with hm | hm <;> simp [hm]
  exact {
    quiet := fun _ => he
    decoding := fun h => absurd h hdec
    doneWell := fun h => ⟨hd h, he⟩
    recorded := by simp [he, hf]
    faulted := fun h => absurd h hfault
    walking := fun h => absurd h hdec
    atHead := fun h => absurd h hdec }

/-- In DEC they speak of the record and of the walk, and DONE is 0. -/
theorem State.sessionInv_of_dec {t : State} (hm : t.mode = .dec)
    (he : t.err = 0#8 ∨ t.err = Cause.noMark.errBit) (hf : t.fcause = 0#4 ↔ t.err = 0#8)
    (hd : t.done = false) (hw : t.raw = false → t.internalAt t.cur ∧ t.internalAt t.root)
    (hh : t.phase = .head → t.cur = t.root) : t.SessionInv where
  quiet := by simp [hm]
  decoding _ := he
  doneWell := by simp [hd]
  recorded := hf
  faulted := by simp [hm]
  walking _ := hw
  atHead _ := hh

/-- DONE is 0 in a session and in FAULT. -/
theorem State.SessionInv.done_eq_false {s : State} (h : s.SessionInv) (hm : s.mode ≠ .idle) :
    s.done = false :=
  Bool.eq_false_iff.2 fun hd => hm (h.doneWell hd).1

/-- They do not look at the host's inputs. -/
theorem State.SessionInv.withInput {s : State} (h : s.SessionInv) (q : List HostInput) :
    State.SessionInv { s with cmdIn := q } :=
  ⟨h.quiet, h.decoding, h.doneWell, h.recorded, h.faulted, h.walking, h.atHead⟩

theorem State.sessionInv_resetBlock (s : State) : s.resetBlock.SessionInv :=
  State.sessionInv_of_quiet (.inl rfl) rfl rfl fun _ => rfl

/-- A fault that stops the session leaves a state that meets them, whatever the state before. -/
theorem State.sessionInv_raise (s : State) {c : Cause} (info : Byte) (hc : c.stops = true) :
    (s.raise c info).SessionInv :=
  State.sessionInv_of_fault (s.raise_mode_of_stops info hc) (s.raise_err_ne_zero c info)
    (s.raise_fcause_ne_zero c info) rfl

/-- In IDLE and PACK, what leaves MODE, DONE and the record as they are keeps them. -/
theorem State.SessionInv.of_quiet_frame {s t : State} (h : s.SessionInv)
    (hm : s.mode = .idle ∨ s.mode = .pack) (mode : t.mode = s.mode) (err : t.err = s.err)
    (fcause : t.fcause = s.fcause) (done : t.done = s.done) : t.SessionInv := by
  have he : s.err = 0#8 := h.quiet hm
  refine State.sessionInv_of_quiet (mode ▸ hm) (err.trans he) (fcause.trans (h.recorded.2 he)) ?_
  rw [mode, done]
  exact fun hd => (h.doneWell hd).1

/-! The session invariants under the commands' own rules, each in its mode. -/

theorem State.SessionInv.appendBits {s : State} (h : s.SessionInv) (hm : s.mode = .pack) (bits : Bits)
    (info : Byte) : (s.appendBits bits info).SessionInv :=
  State.appendBits_elim (s.sessionInv_raise info rfl) (h.of_quiet_frame (.inr hm) rfl rfl rfl rfl)

/-- A symbol session starts only at a root that is a valid internal node (R185), so (f) holds of CUR = ROOT. -/
theorem State.SessionInv.dkBegin {s : State} (h : s.SessionInv) (hm : s.mode = .idle) (raw : Bool)
    (hroot : ¬ (raw = false ∧ isInternal (s.readTr s.root) = false)) :
    State.SessionInv { s with raw := raw, phase := .head, cur := s.root, done := false, mode := .dec } := by
  have hinternal (hr : raw = false) : s.internalAt s.root := by simpa [hr] using hroot
  exact State.sessionInv_of_dec rfl (.inl (h.quiet (.inl hm))) h.recorded rfl
    (fun hr => ⟨hinternal hr, hinternal hr⟩) fun _ => rfl

/-- Taking the first byte ends the head of the stream, and (g) with it. -/
theorem State.SessionInv.enterBody {s : State} (h : s.SessionInv) (hm : s.mode = .dec) :
    State.SessionInv { s with phase := .body } :=
  State.sessionInv_of_dec hm (h.decoding hm) h.recorded (h.done_eq_false (by simp [hm])) (h.walking hm)
    fun hp => nomatch hp

/-- E_NOMARK alone goes on with the session; its flag is then the only one set (R219). -/
theorem State.SessionInv.raise_noMark {s : State} (h : s.SessionInv) (hm : s.mode = .dec) :
    (s.raise .noMark 0#8).SessionInv := by
  have he : s.err ||| Cause.noMark.errBit = Cause.noMark.errBit := by
    rcases h.decoding hm with he | he <;> rw [he] <;> decide
  exact State.sessionInv_of_dec hm (.inr he)
    (iff_of_false (s.raise_fcause_ne_zero _ _) (s.raise_err_ne_zero _ _)) rfl (h.walking hm) (h.atHead hm)

/-- Payload bits after the head of the stream move CUR between internal nodes, or raise E_TREE. -/
theorem State.SessionInv.feed {s : State} (h : s.SessionInv) (hm : s.mode = .dec) (hp : s.phase = .body)
    (B : Bits) : (s.feed B).SessionInv := by
  obtain ⟨out, c, ⟨e, hc⟩ | ⟨bad, -, -, e⟩⟩ := s.feed_cases B <;> rw [e]
  · have hw (hr : s.raw = false) : s.internalAt c ∧ s.internalAt s.root :=
      have ⟨hcur, hroot⟩ := h.walking hm hr
      ⟨hc hcur hroot, hroot⟩
    exact State.sessionInv_of_dec hm (h.decoding hm) h.recorded (h.done_eq_false (by simp [hm])) hw
      fun hh => nomatch hp.symm.trans hh
  · exact State.sessionInv_raise _ bad rfl

/-- The end-of-stream checks of a state that meets them, E_NOMARK's part already made: FAULT with a flag
set, or IDLE without one (R189). -/
theorem State.SessionInv.endStream {s : State} (h : s.SessionInv) (hm : s.mode = .dec) :
    s.endStream.SessionInv := by
  unfold State.endStream
  split
  · exact s.sessionInv_raise _ rfl
  · split
    case isTrue he =>
      exact State.sessionInv_of_fault rfl he (mt h.recorded.1 he) (h.done_eq_false (by simp [hm]))
    case isFalse he =>
      have he : s.err = 0#8 := not_not.1 he
      exact State.sessionInv_of_quiet (.inl rfl) he (h.recorded.2 he) fun _ => rfl

/-- Every command's own rule keeps them in a mode that admits it. -/
theorem State.SessionInv.ownRule {s : State} (h : s.SessionInv) {i : Instr}
    (ha : admittedIn i s.mode = true) : (ownRule i s).SessionInv := by
  cases i with
  | nop => exact h
  | rst => exact s.sessionInv_resetBlock
  | rdReg r => exact ⟨h.quiet, h.decoding, h.doneWell, h.recorded, h.faulted, h.walking, h.atHead⟩
  | trLeaf | trNode | setRoot | ctClr | ctNew => exact h.of_quiet_frame (.inl (eq_of_beq ha)) rfl rfl rfl rfl
  | ctBit v =>
    dsimp only [Machine.ownRule]
    split
    · exact s.sessionInv_raise _ rfl
    · split
      · exact s.sessionInv_raise _ rfl
      · exact h.of_quiet_frame (.inl (eq_of_beq ha)) rfl rfl rfl rfl
  | pkBegin =>
    have he : s.err = 0#8 := h.quiet (.inl (eq_of_beq ha))
    exact State.sessionInv_of_quiet (.inr rfl) he (h.recorded.2 he) fun hd => nomatch hd
  | pkSym sym =>
    dsimp only [Machine.ownRule]
    split
    · exact s.sessionInv_raise _ rfl
    · exact h.appendBits (eq_of_beq ha) _ _
  | pkChar ch =>
    dsimp only [Machine.ownRule]
    split
    · exact s.sessionInv_raise _ rfl
    · exact h.appendBits (eq_of_beq ha) _ _
  | pkEnd =>
    have he : s.err = 0#8 := h.quiet (.inr (eq_of_beq ha))
    exact State.sessionInv_of_quiet (.inl rfl) he (h.recorded.2 he) fun _ => rfl
  | dkBegin raw =>
    dsimp only [Machine.ownRule]
    split
    · exact s.sessionInv_raise _ rfl
    · exact h.dkBegin (eq_of_beq ha) raw ‹_›
  | dkByte byte =>
    have hm : s.mode = .dec := eq_of_beq ha
    dsimp only [Machine.ownRule]
    split
    · exact h.feed hm ‹_› _
    · split
      · exact (h.enterBody hm).raise_noMark hm
      · exact (h.enterBody hm).feed hm rfl _
  | dkEnd =>
    have hm : s.mode = .dec := eq_of_beq ha
    dsimp only [Machine.ownRule]
    split
    · exact (h.raise_noMark hm).endStream hm
    · exact h.endStream hm

/-- Every command keeps them. -/
theorem State.SessionInv.after {s : State} (h : s.SessionInv) (i : Instr) : (after i s).SessionInv :=
  after_elim h (fun _ => s.sessionInv_raise _ rfl) h.ownRule

/-- Every step keeps them (R30). -/
theorem State.SessionInv.step {s t : State} (hs : s.SessionInv) (h : step s = .next t) : t.SessionInv :=
  step_keeps (P := State.SessionInv) (fun _ q hs => hs.withInput q) (fun s _ => s.sessionInv_resetBlock)
    (fun i _ hs => hs.after i) (fun _ s _ _ => s.sessionInv_raise _ rfl) hs h

/-- Settles O31: in each mode the invariants reduce to that mode's few facts, and each command's own rule
leaves a state of a known mode; over runs by induction. -/
theorem sessionInvariantKept : Obligations.SessionInvariantKept := by
  have keeps (s t : State) (hs : s.SessionInv) (h : Machine.step s = .next t) : t.SessionInv := hs.step h
  refine ⟨keeps, fun _ => reachable_induction (P := State.SessionInv) ?_ keeps⟩
  intro _ _ _ _
  exact State.sessionInv_of_quiet (.inl rfl) rfl rfl fun _ => rfl

/-! The registers as views (R35 to R38). -/

/-- Bits side by side are the low part OR the high part shifted past it. -/
theorem setWidth_append_eq_or {m n w : Nat} (x : BitVec m) (y : BitVec n) :
    (x ++ y).setWidth w = y.setWidth w ||| x.setWidth w <<< n := by
  apply BitVec.eq_of_getLsbD_eq
  intro i hi
  by_cases h : i < n
  · simp [BitVec.getLsbD_append, h, hi]
  · simp [BitVec.getLsbD_append, h, hi, BitVec.getLsbD_of_ge y i (Nat.le_of_not_lt h)]

theorem State.status_eq (s : State) : s.status =
    (s.mode.code.setWidth 32 ||| s.phase.code.setWidth 32 <<< 2 |||
      (BitVec.ofBool s.raw).setWidth 32 <<< 3 ||| (BitVec.ofBool s.done).setWidth 32 <<< 4 |||
      s.err.setWidth 32 <<< 8 ||| s.fcause.setWidth 32 <<< 16 ||| s.finfo.setWidth 32 <<< 24) := by
  rw [← BitVec.setWidth_eq s.status, State.status]
  simp only [setWidth_append_eq_or, BitVec.shiftLeft_or_distrib, ← BitVec.shiftLeft_add]
  simp [BitVec.or_assoc]

theorem State.walkReg_eq (s : State) : s.walkReg =
    (s.cur.setWidth 32 ||| s.root.setWidth 32 <<< 8 ||| s.ctsel.setWidth 32 <<< 16) := by
  rw [← BitVec.setWidth_eq s.walkReg, State.walkReg]
  simp only [setWidth_append_eq_or, BitVec.shiftLeft_or_distrib, ← BitVec.shiftLeft_add]
  simp [BitVec.or_assoc]

/-- PBUF within a capacity R15 allows is counted exactly by 32 bits. -/
theorem State.DataInv.plen_toNat {s : State} (h : s.DataInv) : s.plen.toNat = s.pbuf.length := by
  have hbuffer := h.buffer
  have hmax : s.pbufBits ≤ 4294967295 := h.capacity.2
  rw [State.plen, BitVec.toNat_ofNat]
  exact Nat.mod_eq_of_lt (by omega)

/-- Settles O6: each register's concatenated fields are its OR of shifted fields. -/
theorem registerViews : Obligations.RegisterViews :=
  fun s => ⟨s.status_eq, fun h => h.plen_toNat, s.walkReg_eq, rfl, rfl, rfl⟩

/-! The output traces (R45, R52). -/

/-- Nothing happened to the traces but lists appended, each to the stream the command owns (R45). -/
def AppendsOwn (i : Instr) (s t : State) : Prop :=
  ∃ bs ds rs, t.toTraces = ⟨s.byteOut ++ bs, s.decOut ++ ds, s.rspOut ++ rs⟩ ∧
    (bs ≠ [] → i = .pkEnd) ∧ (ds ≠ [] → ∃ b, i = .dkByte b) ∧ (rs ≠ [] → ∃ r, i = .rdReg r)

theorem appendsOwn_of_silent {i : Instr} {s t : State} (h : t.toTraces = s.toTraces) : AppendsOwn i s t :=
  ⟨[], [], [], by simp [h], by simp, by simp, by simp⟩

theorem appendsOwn_dkByte {byte : Byte} {s t : State} {ds : List Byte}
    (h : t.toTraces = { s.toTraces with decOut := s.decOut ++ ds }) : AppendsOwn (.dkByte byte) s t :=
  ⟨[], ds, [], by simp [h], by simp, fun _ => ⟨byte, rfl⟩, by simp⟩

theorem State.appendBits_toTraces (s : State) (bits : Bits) (info : Byte) :
    (s.appendBits bits info).toTraces = s.toTraces :=
  State.appendBits_elim (P := fun t => t.toTraces = s.toTraces) rfl rfl

theorem State.endStream_toTraces (s : State) : s.endStream.toTraces = s.toTraces := by
  unfold State.endStream
  repeat' split
  all_goals rfl

/-- Payload bits append to DEC_OUT alone (R186). -/
theorem State.feed_toTraces (s : State) (B : Bits) :
    ∃ ds, (s.feed B).toTraces = { s.toTraces with decOut := s.decOut ++ ds } := by
  obtain ⟨ds, _, ⟨e, -⟩ | ⟨_, -, -, e⟩⟩ := s.feed_cases B <;> exact ⟨ds, e ▸ rfl⟩

/-- Every command's own rule appends to no stream but its own. -/
theorem ownRule_appendsOwn (i : Instr) (s : State) : AppendsOwn i s (ownRule i s) := by
  cases i with
  | rdReg r =>
    exact ⟨[], [], [s.readReg r], by simp [ownRule, State.emitRsp], by simp, by simp, fun _ => ⟨r, rfl⟩⟩
  | pkEnd =>
    exact ⟨pack s.pbuf, [], [], by simp [ownRule, State.emitBytes], fun _ => rfl, by simp, by simp⟩
  | dkByte byte =>
    dsimp only [ownRule]
    split
    · obtain ⟨ds, h⟩ := s.feed_toTraces (bitsOfByte byte)
      exact appendsOwn_dkByte h
    · split
      · exact appendsOwn_of_silent rfl
      · obtain ⟨ds, h⟩ := State.feed_toTraces { s with phase := .body } (headPayload byte)
        exact appendsOwn_dkByte h
  | ctBit v =>
    dsimp only [ownRule]
    repeat' split
    all_goals exact appendsOwn_of_silent rfl
  | pkSym sym =>
    dsimp only [ownRule]
    split
    · exact appendsOwn_of_silent rfl
    · exact appendsOwn_of_silent (s.appendBits_toTraces _ _)
  | pkChar ch =>
    dsimp only [ownRule]
    split
    · exact appendsOwn_of_silent rfl
    · exact appendsOwn_of_silent (s.appendBits_toTraces _ _)
  | dkBegin raw =>
    dsimp only [ownRule]
    split <;> exact appendsOwn_of_silent rfl
  | dkEnd =>
    refine appendsOwn_of_silent ((State.endStream_toTraces _).trans ?_)
    split <;> rfl
  | _ => exact appendsOwn_of_silent rfl

/-- Every command appends to no stream but its own (R45). -/
theorem after_appendsOwn (i : Instr) (s : State) : AppendsOwn i s (after i s) :=
  after_elim (appendsOwn_of_silent rfl) (fun _ => appendsOwn_of_silent rfl) fun _ => ownRule_appendsOwn i s

theorem illegalWord_toTraces (w : Word) (s : State) : (illegalWord w s).toTraces = s.toTraces :=
  illegalWord_elim (P := fun t => t.toTraces = s.toTraces) rfl fun _ => rfl

/-- Settles O38: by the inputs a step can take; only a command's own rule appends. -/
theorem outputsAppendOnly : Obligations.OutputsAppendOnly := by
  intro s t h
  obtain ⟨-, e⟩ | ⟨rest, -, e⟩ | ⟨w, rest, i, hin, hdecode, e⟩ | ⟨w, rest, -, -, e⟩ := step_cases s <;>
    rw [e] at h <;> cases h
  · exact ⟨[], [], [], by simp⟩
  · exact ⟨[], [], [], by simp⟩
  · have hnext (j) (hj : i = j) : NextCommand s j := ⟨w, rest, hin, hj ▸ hdecode⟩
    obtain ⟨bs, ds, rs, ht, hbs, hds, hrs⟩ := after_appendsOwn i { s with cmdIn := rest }
    exact ⟨bs, ds, rs, by rw [ht], by rw [ht], by rw [ht], fun hne => hnext _ (hbs hne),
      fun hne => (hds hne).imp fun b => hnext (.dkByte b), fun hne => (hrs hne).imp fun r => hnext (.rdReg r)⟩
  · exact ⟨[], [], [], by simp [illegalWord_toTraces]⟩

/-! The reset values (R50, R52). -/

/-- A block at reset has every component at its reset value, and its registers read as R50 lists. -/
theorem atReset_of_toBlock {t : State} (h : t.toBlock = Block.reset) : AtReset t := by
  constructor
  case status => simp [State.readReg, State.status, h, Mode.code, Phase.code]
  case plen => simp [State.readReg, State.plen, h]
  case walk => simp [State.readReg, State.walkReg, h]
  case ident => rfl
  case tr => simp [State.readTr, h]
  case ct => simp [State.readCt, h]
  all_goals simp [h]

/-- A hardware reset in front is carried out by the next step (R240). -/
theorem step_of_reset {s : State} {rest : List HostInput} (h : s.cmdIn = .reset :: rest) :
    step s = .next { s with cmdIn := rest }.resetBlock := by
  simp [step, State.takeInput, h, deliver]

/-- Settles O1: each reset leaves the block `Block.reset`. -/
theorem resetLeavesResetState : Obligations.ResetLeavesResetState :=
  ⟨atReset_of_toBlock rfl, fun s => ⟨s.resetBlock, rfl, atReset_of_toBlock rfl⟩,
    fun _ _ h => ⟨_, step_of_reset h, atReset_of_toBlock rfl⟩⟩

/-- Settles O2: a reset replaces the block and leaves the traces beside it. -/
theorem resetKeepsOutputTraces : Obligations.ResetKeepsOutputTraces :=
  ⟨rfl, rfl, rfl, fun s => ⟨s.resetBlock, rfl, rfl, rfl, rfl⟩, fun _ _ h => ⟨_, step_of_reset h, rfl, rfl, rfl⟩⟩

end Sys2Proof.Machine
end

section
/-! SUPPORT. The statements about the encoding (30_encoding.md): decoder and encoder against the mask table
(R91, R93, R94), illegal words (R96), the mode table (R98) and the filter of FAULT (R99). -/

namespace Sys2Proof

/-! The decoder undone by the encoder (R91). -/

theorem whenZero_eq_some {unused : Bool} {o : Option Instr} {i : Instr} :
    whenZero unused o = some i ↔ unused = true ∧ o = some i := by
  cases unused <;> simp [whenZero]

theorem symbolOf_eq_some_iff {c : Byte} {sym : Symbol} : symbolOf c = some sym ↔ symbolField sym = c :=
  ⟨symbolField_of_symbolOf, fun h => h ▸ symbolOf_symbolField sym⟩

theorem bitOf_eq_some_iff {c : Byte} {v : Bool} : bitOf c = some v ↔ bitField v = c :=
  ⟨bitField_of_bitOf, fun h => h ▸ bitOf_bitField v⟩

theorem regOf_eq_some_iff {c : Byte} {r : BitVec 2} : regOf c = some r ↔ regField r = c :=
  ⟨regField_of_regOf, fun h => h ▸ regOf_regField r⟩

theorem decode_encode (i : Instr) : decode (encode i) = some i := by
  cases i <;> simp [decode, encode, whenZero]

/-- A word that decodes has zeros in field z. -/
theorem fieldZ_of_decode {w : Word} {i : Instr} (h : decode w = some i) : fieldZ w = 0#4 :=
  eq_of_beq (whenZero_eq_some.1 h).1

/-- Opcode by opcode: the decoder's tests say that the fields are the command's own. -/
theorem encode_of_decode_formatWord {op : BitVec 4} {a b c : Byte} {i : Instr}
    (h : decode (formatWord op a b c) = some i) : encode i = formatWord op a b c := by
  simp only [decode, whenZero_eq_some, fieldOp_formatWord, fieldZ_formatWord, fieldA_formatWord,
    fieldB_formatWord, fieldC_formatWord, beq_self_eq_true, true_and] at h
  split at h <;> simp only [whenZero_eq_some, Bool.and_eq_true, beq_iff_eq, Option.map_eq_some_iff,
    Option.some.injEq, symbolOf_eq_some_iff, bitOf_eq_some_iff, regOf_eq_some_iff, reduceCtorEq] at h
  case h_1 | h_2 | h_10 | h_13 | h_16 =>
    obtain ⟨⟨⟨rfl, rfl⟩, rfl⟩, rfl⟩ := h
    rfl
  case h_3 | h_7 | h_8 | h_9 | h_11 | h_14 =>
    obtain ⟨⟨rfl, rfl⟩, operand, rfl, rfl⟩ := h
    rfl
  case h_4 =>
    obtain ⟨rfl, sym, rfl, rfl⟩ := h
    rfl
  case h_5 =>
    subst h
    rfl
  case h_6 | h_12 | h_15 =>
    obtain ⟨⟨rfl, rfl⟩, rfl⟩ := h
    rfl

theorem encode_of_decode {w : Word} {i : Instr} (h : decode w = some i) : encode i = w := by
  have hw := formatWord_fields w (fieldZ_of_decode h)
  rw [← hw] at h
  exact (encode_of_decode_formatWord h).trans hw

/-! The rows of R93 against the decoder. -/

/-- Every command's word is on its own row. -/
theorem encode_on_row : ∀ i, Laws.EncodesOnRow.Statement i
  | .nop => Laws.EncodesOnRow.nop
  | .rst => Laws.EncodesOnRow.rst
  | .rdReg r => Laws.EncodesOnRow.rdReg r
  | .trLeaf idx sym => Laws.EncodesOnRow.trLeaf idx sym
  | .trNode idx left right => Laws.EncodesOnRow.trNode idx left right
  | .setRoot idx => Laws.EncodesOnRow.setRoot idx
  | .ctClr sym => Laws.EncodesOnRow.ctClr sym
  | .ctNew sym => Laws.EncodesOnRow.ctNew sym
  | .ctBit v => Laws.EncodesOnRow.ctBit v
  | .pkBegin => Laws.EncodesOnRow.pkBegin
  | .pkSym sym => Laws.EncodesOnRow.pkSym sym
  | .pkChar ch => Laws.EncodesOnRow.pkChar ch
  | .pkEnd => Laws.EncodesOnRow.pkEnd
  | .dkBegin raw => Laws.EncodesOnRow.dkBegin raw
  | .dkByte byte => Laws.EncodesOnRow.dkByte byte
  | .dkEnd => Laws.EncodesOnRow.dkEnd

theorem accepts_of_decode {w : Word} {i : Instr} (h : decode w = some i) : i.row.accepts w = true :=
  encode_of_decode h ▸ beq_iff_eq.2 (encode_on_row i)

/-- A mask and match met by a word are met field by field. -/
theorem fields_of_accepts {mask fixed w : Word} (h : WordRow.accepts ⟨mask, fixed⟩ w = true) :
    fieldOp w &&& mask.extractLsb' 28 4 = fixed.extractLsb' 28 4 ∧
    fieldA w &&& mask.extractLsb' 20 8 = fixed.extractLsb' 20 8 ∧
    fieldZ w &&& mask.extractLsb' 16 4 = fixed.extractLsb' 16 4 ∧
    fieldB w &&& mask.extractLsb' 8 8 = fixed.extractLsb' 8 8 ∧
    fieldC w &&& mask.extractLsb' 0 8 = fixed.extractLsb' 0 8 := by
  have field (start len : Nat) :
      w.extractLsb' start len &&& mask.extractLsb' start len = fixed.extractLsb' start len := by
    rw [← BitVec.extractLsb'_and, eq_of_beq h]
  exact ⟨field 28 4, field 20 8, field 16 4, field 8 8, field 0 8⟩

theorem and_0xF (x : BitVec 4) : x &&& 0xF#4 = x := BitVec.and_allOnes

theorem and_0xFF (x : Byte) : x &&& 0xFF#8 = x := BitVec.and_allOnes

theorem exists_symbolField {c : Byte} (h : c &&& 0x80#8 = 0#8) : ∃ sym, symbolField sym = c :=
  ⟨c.extractLsb' 0 7, by revert c; decide⟩

theorem exists_bitField {c : Byte} (h : c &&& 0xFE#8 = 0#8) : ∃ v, bitField v = c :=
  ⟨c.getLsbD 0, by revert c; decide⟩

theorem exists_regField {c : Byte} (h : c &&& 0xFC#8 = 0#8) : ∃ r, regField r = c :=
  ⟨c.extractLsb' 0 2, by revert c; decide⟩

/-- A word on a command's row decodes to a command of that row: the mask fixes the opcode and every unused
field, and field c holds an operand of the command's width. -/
theorem decode_row_of_accepts {w : Word} {i : Instr} (h : i.row.accepts w = true) :
    (decode w).map Instr.row = some i.row := by
  cases i
  all_goals
    obtain ⟨hop, ha, hz, hb, hc⟩ := fields_of_accepts h
    simp only [BitVec.reduceExtractLsb', and_0xF, and_0xFF] at hop ha hz hb hc
    rw [← formatWord_fields w hz]
    simp only [hop, ha, hb, hc]
  case rdReg =>
    obtain ⟨r, hr⟩ := exists_regField hc
    simp [← hr, decode, whenZero, Instr.row]
  case ctBit | dkBegin =>
    obtain ⟨v, hv⟩ := exists_bitField hc
    simp [← hv, decode, whenZero, Instr.row]
  case trLeaf | ctClr | ctNew | pkSym =>
    obtain ⟨sym, hsym⟩ := exists_symbolField hc
    simp [← hsym, decode, whenZero, Instr.row]
  all_goals simp [decode, whenZero, Instr.row]

/-- The table has no row but the commands'. -/
theorem exists_row_eq {r : WordRow} (h : r ∈ wordRows) : ∃ i : Instr, i.row = r := by
  fin_cases h <;> exact ⟨_, rfl⟩

theorem row_mem_wordRows (i : Instr) : i.row ∈ wordRows := by
  cases i <;> simp [wordRows, Instr.row]

theorem decode_row_of_mem {w : Word} {r : WordRow} (hr : r ∈ wordRows) (h : r.accepts w = true) :
    ∃ i, decode w = some i ∧ i.row = r := by
  obtain ⟨i, rfl⟩ := exists_row_eq hr
  exact Option.map_eq_some_iff.1 (decode_row_of_accepts h)

/-- The words that match a row are the words that decode. -/
theorem wellFormedWord_iff {w : Word} : wellFormedWord w = true ↔ ∃ i, decode w = some i := by
  refine ⟨fun h => ?_, fun ⟨i, h⟩ => List.any_eq_true.2 ⟨i.row, row_mem_wordRows i, accepts_of_decode h⟩⟩
  obtain ⟨r, hr, hw⟩ := List.any_eq_true.1 h
  obtain ⟨i, hi, -⟩ := decode_row_of_mem hr hw
  exact ⟨i, hi⟩

theorem decode_eq_none_iff {w : Word} : decode w = none ↔ wellFormedWord w = false := by
  rw [← Bool.not_eq_true, wellFormedWord_iff, Option.eq_none_iff_forall_ne_some, not_exists]

/-- Settles O25: the encoder undoes the decoder field by field, and each command's word is on its row. -/
theorem decodeEncodeAgree : Obligations.DecodeEncodeAgree :=
  ⟨decode_encode, fun _ _ h => ⟨encode_of_decode h, accepts_of_decode h⟩, fun _ => decode_eq_none_iff⟩

/-- Settles O26: a row is fixed by the one command its words decode to, so no word is on two. -/
theorem wordRowsDisjoint : Obligations.WordRowsDisjoint := by
  intro w r hr hw
  obtain ⟨i, hi, rfl⟩ := decode_row_of_mem hr hw
  refine ⟨⟨i, hi, rfl⟩, fun r' hr' hw' => ?_⟩
  obtain ⟨j, hj, rfl⟩ := decode_row_of_mem hr' hw'
  rw [Option.some.inj (hi.symm.trans hj)]

end Sys2Proof

namespace Sys2Proof.Machine

open Sys2Proof.Claims

/-! Words and commands in FAULT and outside it (R90, R96, R98, R99). -/

theorem deliverWord_of_decode {w : Word} {i : Instr} (h : decode w = some i) (s : State) :
    deliverWord w s = .next (after i s) := by
  simp only [deliverWord, h, exec_eq_after]

theorem deliverWord_of_illegal {w : Word} (h : decode w = none) (s : State) :
    deliverWord w s = .next (illegalWord w s) := by
  simp only [deliverWord, h]

theorem illegalWord_of_fault {s : State} (w : Word) (hs : s.mode = .fault) : illegalWord w s = s := by
  simp only [illegalWord, hs, if_true]

theorem illegalWord_of_not_fault {s : State} (w : Word) (hs : s.mode ≠ .fault) :
    illegalWord w s = s.raise .illegal (topByte w) := by
  simp only [illegalWord, hs, if_false]

/-- Settles O23: by the two cases of an illegal word. -/
theorem illegalWordRule : Obligations.IllegalWordRule := by
  intro w hw
  have hd : decode w = none := decode_eq_none_iff.2 hw
  refine ⟨hd, fun s hs => ?_, fun s hs => ?_⟩
  · rw [deliverWord_of_illegal hd, illegalWord_of_not_fault w hs, topByte]
  · rw [deliverWord_of_illegal hd, illegalWord_of_fault w hs]

/-- In FAULT a command that is neither RST nor RD_REG does nothing (R99). -/
theorem after_of_fault {i : Instr} {s : State} (hs : s.mode = .fault) (hrst : i ≠ .rst)
    (hreg : ∀ r, i ≠ .rdReg r) : after i s = s := by
  cases i with
  | nop => rfl
  | rst => exact absurd rfl hrst
  | rdReg r => exact absurd rfl (hreg r)
  | _ => exact (after_eq _ s).trans ((if_neg nofun).trans (State.whenAdmitted_fault _ _ hs))

/-- Outside FAULT a command runs its own rule where its mode admits it (R98). -/
theorem after_of_admitted {i : Instr} {s : State} (hs : s.mode ≠ .fault) (ha : admittedIn i s.mode = true) :
    after i s = ownRule i s := by
  rw [after_eq, State.whenAdmitted_runs (ownRule i) hs ha, ite_self]

/-- Outside FAULT a command raises E_SEQ where its mode does not admit it (R98). -/
theorem after_of_not_admitted {i : Instr} {s : State} (hs : s.mode ≠ .fault)
    (ha : admittedIn i s.mode = false) : after i s = s.raise .seq (commandByte i) := by
  have hi : ¬ admittedIn i .fault = true := fun h => by simp [admittedIn_of_fault h] at ha
  rw [after_eq, if_neg hi, State.whenAdmitted_seq (ownRule i) hs ha]

/-- RST is the only command that leaves FAULT (R99). -/
theorem after_mode_of_fault {i : Instr} {s : State} (hs : s.mode = .fault) (hrst : i ≠ .rst) :
    (after i s).mode = .fault := by
  by_cases hreg : ∃ r, i = .rdReg r
  · obtain ⟨r, rfl⟩ := hreg
    exact hs
  · rwa [after_of_fault hs hrst (not_exists.1 hreg)]

theorem eq_of_decode_rst {w : Word} (h : decode w = some .rst) : w = 0x10000000#32 :=
  (encode_of_decode h).symm

theorem and_mask_of_decode_rdReg {w : Word} {r : BitVec 2} (h : decode w = some (.rdReg r)) :
    w &&& 0xFFFFFFFC#32 = 0x20000000#32 :=
  eq_of_beq (accepts_of_decode h)

/-- The word of RD_REG as R91 writes it. -/
theorem encode_rdReg (r : BitVec 2) : encode (.rdReg r) = 0x20000000#32 ||| r.setWidth 32 := by
  revert r; decide

/-- In FAULT a word that is no RST and no RD_REG changes nothing (R99). -/
theorem deliverWord_of_fault {s : State} {w : Word} (hs : s.mode = .fault) (hrst : w ≠ 0x10000000#32)
    (hreg : w &&& 0xFFFFFFFC#32 ≠ 0x20000000#32) : deliverWord w s = .next s := by
  cases hd : decode w with
  | none => rw [deliverWord_of_illegal hd, illegalWord_of_fault w hs]
  | some i =>
    have hi : i ≠ .rst := fun e => hrst (eq_of_decode_rst (e ▸ hd))
    have hr (r) : i ≠ .rdReg r := fun e => hreg (and_mask_of_decode_rdReg (e ▸ hd))
    rw [deliverWord_of_decode hd, after_of_fault hs hi hr]

/-- No step that takes no reset leaves FAULT (R99). -/
theorem step_mode_of_fault {s t : State} (hs : s.mode = .fault) (hno : NoReset s) (h : step s = .next t) :
    t.mode = .fault := by
  obtain ⟨-, e⟩ | ⟨rest, hin, -⟩ | ⟨w, rest, i, hin, hd, e⟩ | ⟨w, rest, -, -, e⟩ := step_cases s
  · cases e.symm.trans h
    exact hs
  · cases hno _ _ hin
  · have hi : i ≠ .rst := fun hrst => by
      obtain rfl : w = 0x10000000#32 := eq_of_decode_rst (hrst ▸ hd)
      cases hno _ _ hin
    cases e.symm.trans h
    exact after_mode_of_fault hs hi
  · cases e.symm.trans h
    exact illegalWord_elim (P := fun t => t.mode = .fault) hs (absurd hs)

/-- Settles O22: RST and RD_REG are the only commands that FAULT lets act, and their words the only ones. -/
theorem faultModeFilter : Obligations.FaultModeFilter := by
  refine ⟨fun s hs => ⟨⟨s.resetBlock, rfl, atReset_of_toBlock rfl⟩, fun r => ?_,
    fun w hrst hreg => deliverWord_of_fault hs hrst hreg⟩, fun s t => step_mode_of_fault⟩
  rw [← encode_rdReg, deliverWord_of_decode (decode_encode _)]
  rfl

/-! MODE after a command's own rule (R98). -/

/-- The rows of R98 that are `-` are those of the modes that do not admit the command. -/
theorem modeAfter_eq_none_iff (i : Instr) (m : Mode) : modeAfter i m = none ↔ admittedIn i m = false := by
  cases i <;> simp [modeAfter, admittedIn]

/-- A symbol as an information byte is the symbol zero-extended (R104). -/
theorem symbolItem_eq_setWidth (sym : Symbol) : symbolItem sym = sym.setWidth 8 := by
  revert sym; decide

theorem commandByte_ctBit (v : Bool) : commandByte (.ctBit v) = 0x80#8 := by
  revert v; decide

theorem charBit_eq_none {ch : Byte} (h : charBit ch = none) : ch ≠ 0x30#8 ∧ ch ≠ 0x31#8 := by
  revert ch; decide

theorem charBit_eq_some {ch : Byte} {v : Bool} (h : charBit ch = some v) : ch = 0x30#8 ∨ ch = 0x31#8 := by
  revert ch v; decide

/-- Appending to PBUF keeps MODE, or raises E_OVERFLOW where the bits do not fit (R166, R168). -/
theorem State.appendBits_mode (s : State) (bits : Bits) (info : Byte) :
    (s.appendBits bits info).mode = s.mode ∨
      s.pbuf.length + bits.length > s.pbufBits ∧ s.appendBits bits info = s.raise .overflow info := by
  unfold State.appendBits
  split
  case isTrue hfull => exact .inr ⟨hfull, rfl⟩
  case isFalse => exact .inl rfl

/-- Payload bits keep MODE, or raise E_TREE as DK_BYTE's rule lists it (R186, R188). -/
theorem State.feed_mode (s : State) (B : Bits) (byte : Byte) :
    (State.feed { s with phase := .body } B).mode = s.mode ∨
      EndsInFault (.dkByte byte) s (State.feed { s with phase := .body } B) := by
  obtain ⟨out, cur, ⟨e, -⟩ | ⟨bad, hraw, hbad, e⟩⟩ := State.feed_cases B { s with phase := .body } <;> rw [e]
  · exact .inl rfl
  · exact .inr ⟨hraw, out, cur, bad, hbad, rfl⟩

/-- The end-of-stream checks raise E_MIDWALK, or end in FAULT with a flag set, or end the session (R189). -/
theorem State.endStream_cases (s : State) :
    (s.raw = false ∧ s.cur ≠ s.root ∧ s.endStream = s.raise .midWalk s.cur) ∨
    (s.err ≠ 0#8 ∧ s.endStream = { s with mode := .fault }) ∨
    s.endStream = { s with mode := .idle, done := true } := by
  unfold State.endStream
  split
  case isTrue hwalk => exact .inl ⟨hwalk.1, hwalk.2, rfl⟩
  case isFalse =>
    split
    case isTrue herr => exact .inr (.inl ⟨herr, rfl⟩)
    case isFalse => exact .inr (.inr rfl)

/-- DK_END ends in IDLE, or in FAULT as its rule lists it (R189). -/
theorem dkEnd_mode (s : State) :
    (ownRule .dkEnd s).mode = .idle ∨ EndsInFault .dkEnd s (ownRule .dkEnd s) := by
  dsimp only [ownRule, EndsInFault]
  split
  case isTrue hhead =>
    obtain ⟨hraw, hcur, e⟩ | ⟨-, e⟩ | e := (s.raise .noMark 0#8).endStream_cases <;> rw [e]
    · exact .inr (.inl ⟨hraw, hcur, rfl⟩)
    · exact .inr (.inr (.inl ⟨hhead, rfl⟩))
    · exact .inl rfl
  case isFalse =>
    obtain ⟨hraw, hcur, e⟩ | ⟨herr, e⟩ | e := s.endStream_cases <;> rw [e]
    · exact .inr (.inl ⟨hraw, hcur, rfl⟩)
    · exact .inr (.inr (.inr ⟨herr, rfl⟩))
    · exact .inl rfl

/-- In a mode that admits a command its own rule ends in the mode of R98's table, or in a fault it lists. -/
theorem ownRule_mode {i : Instr} {s : State} {m : Mode} (h : modeAfter i s.mode = some m) :
    (ownRule i s).mode = m ∨ EndsInFault i s (ownRule i s) := by
  cases i <;> simp only [modeAfter, Option.ite_none_right_eq_some, Option.some.injEq] at h
  case nop | rst | rdReg => exact .inl h
  case trLeaf | trNode | setRoot | ctClr | ctNew =>
    obtain ⟨hs, rfl⟩ := h
    exact .inl hs
  case pkBegin | pkEnd =>
    obtain ⟨-, rfl⟩ := h
    exact .inl rfl
  case ctBit v =>
    obtain ⟨hs, rfl⟩ := h
    dsimp only [ownRule]
    split
    case h_1 habsent => exact .inr (.inl ⟨habsent, by rw [commandByte_ctBit]⟩)
    case h_2 code hcode =>
      split
      case isTrue hlen => exact .inr (.inr ⟨code, hcode, hlen, by rw [symbolItem_eq_setWidth]⟩)
      case isFalse => exact .inl hs
  case pkSym sym =>
    obtain ⟨hs, rfl⟩ := h
    dsimp only [ownRule]
    split
    case h_1 habsent => exact .inr (.inl ⟨habsent, by rw [symbolItem_eq_setWidth]⟩)
    case h_2 code hcode =>
      refine (s.appendBits_mode code _).imp (·.trans hs) fun ⟨hfull, e⟩ => ?_
      exact .inr ⟨code, hcode, hfull, by rw [e, symbolItem_eq_setWidth]⟩
  case pkChar ch =>
    obtain ⟨hs, rfl⟩ := h
    dsimp only [ownRule]
    split
    case h_1 hch => exact .inr (.inl ⟨charBit_eq_none hch, rfl⟩)
    case h_2 v hch =>
      refine (s.appendBits_mode [v] ch).imp (·.trans hs) fun ⟨hfull, e⟩ => ?_
      exact .inr ⟨charBit_eq_some hch, hfull, e⟩
  case dkBegin raw =>
    obtain ⟨-, rfl⟩ := h
    dsimp only [ownRule]
    split
    case isTrue hroot => exact .inr ⟨hroot.1, by simp [hroot.2], rfl⟩
    case isFalse => exact .inl rfl
  case dkByte byte =>
    obtain ⟨hs, rfl⟩ := h
    dsimp only [ownRule]
    split
    case h_1 hbody =>
      have e : { s with phase := .body } = s := by rw [← hbody]
      have hfeed := s.feed_mode (bitsOfByte byte) byte
      rw [e] at hfeed
      exact hfeed.imp_left (·.trans hs)
    case h_2 =>
      split
      case isTrue => exact .inl hs
      case isFalse => exact (s.feed_mode (headPayload byte) byte).imp_left (·.trans hs)
  case dkEnd =>
    obtain ⟨-, rfl⟩ := h
    exact dkEnd_mode s

/-- Settles O24: FAULT by R99, the `-` rows by E_SEQ, and the others by the commands' own rules. -/
theorem modeTransitionTable : Obligations.ModeTransitionTable := by
  intro i s
  refine ⟨after i s, exec_eq_after i s, fun hs => ?_, fun hs => ?_⟩
  · cases i with
    | rst => rfl
    | rdReg r => exact hs
    | _ => exact after_of_fault hs nofun nofun
  · cases hm : modeAfter i s.mode with
    | none => exact after_of_not_admitted hs ((modeAfter_eq_none_iff i s.mode).1 hm)
    | some m =>
      have ha : admittedIn i s.mode = true := by
        rw [← Bool.not_eq_false, ← modeAfter_eq_none_iff, hm]
        nofun
      rw [after_of_admitted hs ha]
      exact ownRule_mode hm

end Sys2Proof.Machine
end

section
/-! SUPPORT. The statements about the host-side construction (40_host_construction.md): the discovered symbols
(R128), the frequency list (R126, R127, R129, R130) and a source as it is read (R142). -/

namespace Sys2Proof.Machine

/-! The discovered symbols (R128): the source's distinct symbols, in either order. -/

theorem mem_firstSeen {source : List Symbol} {sym : Symbol} : sym ∈ firstSeen source ↔ sym ∈ source := by
  induction source with
  | nil => rfl
  | cons x rest ih =>
    by_cases hx : sym = x
    · simp [firstSeen, hx]
    · simp [firstSeen, hx, ih]

theorem firstSeen_nodup (source : List Symbol) : (firstSeen source).Nodup := by
  induction source with
  | nil => exact .nil
  | cons x rest ih => exact (ih.filter _).cons (by simp)

theorem mem_alphabet (sym : Symbol) : sym ∈ alphabet :=
  List.mem_map.2 ⟨sym.toNat, List.mem_range.2 sym.isLt, by simp⟩

theorem alphabet_map_toNat : alphabet.map BitVec.toNat = List.range Config.nsym := by decide

theorem alphabet_nodup : alphabet.Nodup :=
  .of_map BitVec.toNat (alphabet_map_toNat ▸ List.nodup_range)

theorem mem_discovered {order : Config.DiscoveryOrder} {source : List Symbol} {sym : Symbol} :
    sym ∈ discovered order source ↔ sym ∈ source := by
  cases order with
  | firstOccurrence => exact mem_firstSeen
  | ascendingOrdinal => simp [discovered, mem_alphabet]

theorem discovered_nodup (order : Config.DiscoveryOrder) (source : List Symbol) :
    (discovered order source).Nodup := by
  cases order with
  | firstOccurrence => exact firstSeen_nodup source
  | ascendingOrdinal => exact alphabet_nodup.filter _

/-- A list without duplicates is fixed by its members up to order, so what was discovered is known up to
order from any duplicate-free list of the source's symbols. -/
theorem discovered_perm {source distinct : List Symbol} (order : Config.DiscoveryOrder) (hd : distinct.Nodup)
    (hmem : ∀ sym, sym ∈ source ↔ sym ∈ distinct) : (discovered order source).Perm distinct :=
  (List.perm_ext_iff_of_nodup (discovered_nodup order source) hd).2 fun sym => mem_discovered.trans (hmem sym)

/-! The entries before a synthetic one (R126, R127): one per discovered symbol. -/

theorem insertEntry_perm (e : SymbolFrequency) (L : List SymbolFrequency) : (insertEntry e L).Perm (e :: L) := by
  induction L with
  | nil => exact .refl _
  | cons f rest ih =>
    rw [insertEntry]
    split
    case isTrue => exact .refl _
    case isFalse => exact (ih.cons f).trans (.swap e f rest)

theorem foldl_insertEntry_perm {α : Type} (entry : α → SymbolFrequency) (xs : List α) (L : List SymbolFrequency) :
    (xs.foldl (fun L x => insertEntry (entry x) L) L).Perm (xs.map entry ++ L) := by
  induction xs generalizing L with
  | nil => exact .refl _
  | cons x rest ih =>
    have hinsert := (insertEntry_perm (entry x) L).append_left (rest.map entry)
    exact ((ih _).trans hinsert).trans List.perm_middle

theorem sortedEntries_perm (order : Config.DiscoveryOrder) (source : List Symbol) :
    (sortedEntries order source).Perm ((discovered order source).map (entryOf source)) := by
  simpa [sortedEntries] using foldl_insertEntry_perm (entryOf source) (discovered order source) []

theorem sortedEntries_nil (order : Config.DiscoveryOrder) : sortedEntries order [] = [] := by
  have h := (discovered_perm order (source := []) .nil fun _ => .rfl).map (entryOf [])
  exact ((sortedEntries_perm order []).trans h).eq_nil

/-- The one symbol of a one-symbol source makes up its whole count (R126). -/
theorem entryOf_replicate (sym : Symbol) (n : Nat) : entryOf (List.replicate (n + 1) sym) sym = ⟨some sym, 1⟩ := by
  have hn : ((n + 1 : Nat) : Rat) ≠ 0 := Nat.cast_ne_zero.2 n.succ_ne_zero
  rw [entryOf, List.count_replicate_self, List.length_replicate, div_self hn]

theorem sortedEntries_replicate (order : Config.DiscoveryOrder) (sym : Symbol) (n : Nat) :
    sortedEntries order (List.replicate (n + 1) sym) = [⟨some sym, 1⟩] := by
  have h := (discovered_perm order (List.nodup_singleton sym)
    (source := List.replicate (n + 1) sym) (by simp)).map (entryOf (List.replicate (n + 1) sym))
  rw [← entryOf_replicate sym n]
  exact ((sortedEntries_perm order _).trans h).eq_singleton

theorem sortedEntries_length (order : Config.DiscoveryOrder) (source : List Symbol) :
    (sortedEntries order source).length = (discovered order source).length := by
  rw [(sortedEntries_perm order source).length_eq, List.length_map]

theorem two_le_discovered_length {order : Config.DiscoveryOrder} {source : List Symbol} {a b : Symbol}
    (ha : a ∈ source) (hb : b ∈ source) (hab : a ≠ b) : 2 ≤ (discovered order source).length := by
  have hsub : [a, b] ⊆ discovered order source := by simp [mem_discovered, ha, hb]
  have hpair : [a, b].Nodup := by simpa using hab
  exact (hpair.subperm hsub).length_le

/-! The frequency list by the number of entries (R129, R130). -/

theorem freqList_of_nil {order : Config.DiscoveryOrder} {source : List Symbol} (h : sortedEntries order source = []) :
    freqList order source = .error .emptySource := by
  rw [freqList, h]

theorem freqList_of_singleton {order : Config.DiscoveryOrder} {source : List Symbol} {e : SymbolFrequency}
    (h : sortedEntries order source = [e]) :
    freqList order source = .ok [syntheticEntry (e.symbol.getD 0#7), e] := by
  rw [freqList, h]

theorem freqList_of_two_le_length {order : Config.DiscoveryOrder} {source : List Symbol}
    (h : 2 ≤ (sortedEntries order source).length) : freqList order source = .ok (sortedEntries order source) := by
  unfold freqList
  split
  case h_1 hnil => simp [hnil] at h
  case h_2 e hone => simp [hone] at h
  case h_3 => rfl

/-! A source as it is read (R142). -/

theorem readSource_of_none_mem {input : List (Option Symbol)} (h : none ∈ input) :
    readSource input = .error .sourceFailure := by
  induction input with
  | nil => cases h
  | cons x rest ih =>
    cases x with
    | none => rfl
    | some sym =>
      have hrest : none ∈ rest := by simpa using h
      rw [readSource, ih hrest]
      rfl

theorem readSource_map_some (source : List Symbol) : readSource (source.map some) = .ok source := by
  induction source with
  | nil => rfl
  | cons sym rest ih =>
    rw [List.map_cons, readSource, ih]
    rfl

theorem frequencyTable_of_none_mem (order : Config.DiscoveryOrder) {input : List (Option Symbol)} (h : none ∈ input) :
    frequencyTable order input = .error .sourceFailure := by
  rw [frequencyTable, readSource_of_none_mem h]

theorem frequencyTable_map_some (order : Config.DiscoveryOrder) (source : List Symbol) :
    frequencyTable order (source.map some) = freqList order source := by
  rw [frequencyTable, readSource_map_some]

/-- Settles O53: the list has one entry per distinct symbol, so its length tells the cases of R129 and R130
apart; a read failure (R142) is passed on before anything is counted. -/
theorem degenerateSources : Obligations.DegenerateSources := by
  refine ⟨fun order => ?_, fun order sym n => ?_, fun order source a b ha hb hab => ?_,
    fun order input hfail => ?_, fun order source => ?_⟩
  · exact freqList_of_nil (sortedEntries_nil order)
  · exact freqList_of_singleton (sortedEntries_replicate order sym n)
  · refine freqList_of_two_le_length ?_
    rw [sortedEntries_length]
    exact two_le_discovered_length ha hb hab
  · have htable := frequencyTable_of_none_mem order hfail
    exact ⟨htable, by rw [treeOfInput, htable, treeOfList]⟩
  · have htable := frequencyTable_map_some order source
    exact ⟨htable, by rw [treeOfInput, htable, treeOf]⟩

end Sys2Proof.Machine
end

section
/-! SUPPORT. The statements about the table-load commands (41_table_load.md R150 to R156), and what the rules
of the commands with a mode of their own have in common (30_encoding.md R91, R93, R96, R98, R99). -/

namespace Sys2Proof

/-! The `word` column of R91: the fields of a command's word, OR-ed together. -/

/-- Bit by bit: each bit of a word is in one field, and the z field is zero. -/
theorem formatWord_eq_or (op : BitVec 4) (a b c : Byte) :
    formatWord op a b c =
      op.setWidth 32 <<< 28 ||| a.setWidth 32 <<< 20 ||| b.setWidth 32 <<< 8 ||| c.setWidth 32 := by
  apply BitVec.eq_of_getLsbD_eq
  intro i hi
  rw [formatWord_getLsbD]
  interval_cases i <;> simp

theorem setWidth_symbolField (sym : Symbol) : (symbolField sym).setWidth 32 = sym.setWidth 32 := by
  revert sym; decide

theorem setWidth_bitField (v : Bool) : (bitField v).setWidth 32 = (BitVec.ofBool v).setWidth 32 := by
  revert v; decide

theorem encode_trLeaf (idx : NodeIndex) (sym : Symbol) :
    encode (.trLeaf idx sym) = 0x30000000#32 ||| idx.setWidth 32 <<< 20 ||| sym.setWidth 32 := by
  simp [encode, formatWord_eq_or, setWidth_symbolField]

theorem encode_trNode (idx left right : NodeIndex) :
    encode (.trNode idx left right) =
      0x40000000#32 ||| idx.setWidth 32 <<< 20 ||| left.setWidth 32 <<< 8 ||| right.setWidth 32 := by
  simp [encode, formatWord_eq_or]

theorem encode_setRoot (idx : NodeIndex) : encode (.setRoot idx) = 0x50000000#32 ||| idx.setWidth 32 := by
  simp [encode, formatWord_eq_or]

theorem encode_ctClr (sym : Symbol) : encode (.ctClr sym) = 0x60000000#32 ||| sym.setWidth 32 := by
  simp [encode, formatWord_eq_or, setWidth_symbolField]

theorem encode_ctNew (sym : Symbol) : encode (.ctNew sym) = 0x70000000#32 ||| sym.setWidth 32 := by
  simp [encode, formatWord_eq_or, setWidth_symbolField]

theorem encode_ctBit (v : Bool) : encode (.ctBit v) = 0x80000000#32 ||| (BitVec.ofBool v).setWidth 32 := by
  simp [encode, formatWord_eq_or, setWidth_bitField]

/-! A word of a command's opcode that is not on the command's row is no command (R93, R96). -/

/-- Each row of R93 fixes all four bits of the opcode, and no other bit to one. -/
theorem row_opcode {r : WordRow} (hr : r ∈ wordRows) :
    r.mask &&& 0xF0000000#32 = 0xF0000000#32 ∧ r.fixed &&& 0xF0000000#32 = r.fixed := by
  revert r; decide

/-- The value of a row is therefore the opcode of each word on it. -/
theorem opcode_of_accepts {r : WordRow} {w : Word} (hr : r ∈ wordRows) (h : r.accepts w = true) :
    w &&& 0xF0000000#32 = r.fixed := by
  obtain ⟨hmask, hfixed⟩ := row_opcode hr
  rw [← hmask, ← BitVec.and_assoc, eq_of_beq h, hfixed]

/-- No two rows of R93 have one opcode. -/
theorem row_eq_of_fixed_eq {r r' : WordRow} (hr : r ∈ wordRows) (hr' : r' ∈ wordRows)
    (h : r.fixed = r'.fixed) : r = r' := by
  have distinct : ∀ r ∈ wordRows, ∀ r' ∈ wordRows, r.fixed = r'.fixed → r = r' := by decide
  exact distinct r hr r' hr' h

/-- If such a word decoded, it would be on the one row of its opcode, which is the command's. -/
theorem decode_eq_none_of_mask_ne {i : Instr} {w : Word}
    (hop : w &&& 0xF0000000#32 = encode i &&& 0xF0000000#32)
    (hmask : w &&& i.row.mask ≠ encode i &&& i.row.mask) : decode w = none := by
  have opcode {j : Instr} {u : Word} (h : decode u = some j) : u &&& 0xF0000000#32 = j.row.fixed :=
    opcode_of_accepts (row_mem_wordRows j) (accepts_of_decode h)
  refine Option.eq_none_iff_forall_ne_some.2 fun j hj => hmask ?_
  have hrow : j.row = i.row := by
    refine row_eq_of_fixed_eq (row_mem_wordRows j) (row_mem_wordRows i) ?_
    rw [← opcode hj, hop, opcode (decode_encode i)]
  calc w &&& i.row.mask
    _ = i.row.fixed := eq_of_beq (hrow ▸ accepts_of_decode hj)
    _ = encode i &&& i.row.mask := (encode_on_row i).symm

end Sys2Proof

namespace Sys2Proof.Machine

open Sys2Proof.Claims

/-! The commands with a mode of their own. -/

/-- In FAULT a command that FAULT does not admit does nothing (R99). -/
theorem after_of_fault_of_not_admitted {i : Instr} {s : State} (hs : s.mode = .fault)
    (hi : admittedIn i .fault = false) : after i s = s :=
  after_of_fault hs (fun e => by simp [e, admittedIn] at hi) (fun r e => by simp [e, admittedIn] at hi)

/-- A command admitted in one mode alone has its encoding, its row's mask, E_SEQ and the silence of FAULT from
the rules all commands share; what is its own is the effect of its rule in its mode. -/
theorem sessionCommand_of_ownRule {i : Instr} {word : Word} {home : Mode} {effect : State → State → Prop}
    (hword : encode i = word) (hhome : home ≠ .fault) (hadmit : ∀ m, admittedIn i m = true ↔ m = home)
    (heffect : ∀ s : State, s.mode = home → effect s (ownRule i s)) :
    SessionCommand i word i.row.mask home effect := by
  subst hword
  have hrefuse (m : Mode) (hm : m ≠ home) : admittedIn i m = false :=
    Bool.eq_false_iff.2 fun h => hm ((hadmit m).1 h)
  constructor
  case encodes => rfl
  case decodes => exact decode_encode i
  case illegal => exact fun w hop hmask s => deliverWord_of_illegal (decode_eq_none_of_mask_ne hop hmask) s
  case runs =>
    intro s hs
    have hafter : after i s = ownRule i s := after_of_admitted (hs ▸ hhome) ((hadmit s.mode).2 hs)
    exact ⟨ownRule i s, hafter ▸ exec_eq_after i s, heffect s hs⟩
  case seq =>
    intro s hs hfault
    rw [exec_eq_after, after_of_not_admitted hfault (hrefuse s.mode hs), commandByte]
  case ignored =>
    intro s hs
    rw [exec_eq_after, after_of_fault_of_not_admitted hs (hrefuse .fault hhome.symm)]

/-! What the stores to TR and CT write, and what they leave (R151, R152, R154 to R156). -/

theorem trSet_writeTr (s : State) (idx : NodeIndex) (e : TrEntry) : TrSet s (s.writeTr idx e) idx e :=
  ⟨s.readTr_writeTr_same idx e, fun _ hj => s.readTr_writeTr_other e hj, rfl⟩

theorem ctSet_writeCt (s : State) (sym : Symbol) (code : Bits) : CtSet s (s.writeCt sym code) sym (some code) :=
  ⟨s.readCt_writeCt_same sym code, fun _ hj => s.readCt_writeCt_other code hj⟩

theorem ctSet_clearCt (s : State) (sym : Symbol) : CtSet s (s.clearCt sym) sym none :=
  ⟨s.readCt_clearCt_same sym, fun _ hj => s.readCt_clearCt_other hj⟩

/-- Settles O7: the rule stores one leaf. -/
theorem trLeafRule : Obligations.TrLeafRule := fun idx sym =>
  sessionCommand_of_ownRule (encode_trLeaf idx sym) nofun (fun _ => beq_iff_eq)
    fun s _ => trSet_writeTr s idx (.leaf sym)

/-- Settles O8: the rule stores one internal node, whatever its children are. -/
theorem trNodeRule : Obligations.TrNodeRule := fun idx left right =>
  sessionCommand_of_ownRule (encode_trNode idx left right) nofun (fun _ => beq_iff_eq)
    fun s _ => trSet_writeTr s idx (.int left right)

/-- Settles O9: the rule writes ROOT and looks at no entry. -/
theorem setRootRule : Obligations.SetRootRule := fun idx =>
  sessionCommand_of_ownRule (encode_setRoot idx) nofun (fun _ => beq_iff_eq) fun _ _ => rfl

/-- Settles O10: the rule erases one entry. -/
theorem ctClrRule : Obligations.CtClrRule := fun sym =>
  sessionCommand_of_ownRule (encode_ctClr sym) nofun (fun _ => beq_iff_eq)
    fun s _ => ⟨ctSet_clearCt s sym, rfl⟩

/-- Settles O11: the rule stores the empty code and selects it; selecting changes no entry. -/
theorem ctNewRule : Obligations.CtNewRule := fun sym =>
  sessionCommand_of_ownRule (encode_ctNew sym) nofun (fun _ => beq_iff_eq)
    fun s _ => ⟨ctSet_writeCt s sym [], rfl⟩

/-- Settles O12: by the selected entry, absent, full at 127 bits, or with room for a bit. -/
theorem ctBitRule : Obligations.CtBitRule := by
  refine fun v => sessionCommand_of_ownRule (encode_ctBit v) nofun (fun _ => beq_iff_eq) fun s _ => ?_
  dsimp only [ownRule]
  cases s.readCt s.ctsel with
  | none => exact congrArg (s.raise .seq) (commandByte_ctBit v)
  | some code =>
    by_cases hfull : code.length = 127
    · simp only [Config.maxCode, hfull, if_true, symbolItem_eq_setWidth]
    · simp only [Config.maxCode, hfull, if_false]
      exact ⟨ctSet_writeCt s s.ctsel (code ++ [v]), rfl⟩

end Sys2Proof.Machine
end

section
/-! SUPPORT. The statements about the encode session: its four commands (42_pack.md R165, R166, R168, R169)
and `pack` (R160 to R162). -/

namespace Sys2Proof

theorem encode_pkSym (sym : Symbol) : encode (.pkSym sym) = 0xA0000000#32 ||| sym.setWidth 32 := by
  simp [encode, formatWord_eq_or, setWidth_symbolField]

theorem encode_pkChar (ch : Byte) : encode (.pkChar ch) = 0xB0000000#32 ||| ch.setWidth 32 := by
  simp [encode, formatWord_eq_or]

end Sys2Proof

namespace Sys2Proof.Machine

open Sys2Proof.Claims

/-! The commands (R165 to R169). -/

theorem charBit_eq_ite (ch : Byte) :
    charBit ch = if ch ≠ 0x30#8 ∧ ch ≠ 0x31#8 then none else some (ch == 0x31#8) := by
  revert ch; decide

/-- E_OVERFLOW exactly where the bits do not fit; otherwise they are appended (R166, R168). -/
theorem State.appendBits_rule (s : State) (bits : Bits) (info : Byte) :
    if s.pbuf.length + bits.length > s.pbufBits then s.appendBits bits info = s.raise .overflow info
    else s.appendBits bits info = { s with pbuf := s.pbuf ++ bits } := by
  split
  case isTrue hfull => exact if_pos hfull
  case isFalse hfits => exact if_neg hfits

/-- Settles O13: the rule empties PBUF, clears DONE and enters PACK. -/
theorem pkBeginRule : Obligations.PkBeginRule :=
  sessionCommand_of_ownRule rfl nofun (fun _ => beq_iff_eq) fun _ _ => rfl

/-- Settles O14: by the symbol's entry; a code is appended or does not fit. -/
theorem pkSymRule : Obligations.PkSymRule := by
  refine fun sym => sessionCommand_of_ownRule (encode_pkSym sym) nofun (fun _ => beq_iff_eq) fun s _ => ?_
  dsimp only [ownRule]
  rw [symbolItem_eq_setWidth]
  cases s.readCt sym with
  | none => rfl
  | some code => exact s.appendBits_rule code (sym.setWidth 8)

/-- Settles O15: by whether the character stands for a bit; the bit is appended or does not fit. -/
theorem pkCharRule : Obligations.PkCharRule := by
  refine fun ch => sessionCommand_of_ownRule (encode_pkChar ch) nofun (fun _ => beq_iff_eq) fun s _ => ?_
  dsimp only [ownRule]
  rw [charBit_eq_ite]
  by_cases hch : ch ≠ 0x30#8 ∧ ch ≠ 0x31#8
  · simp only [if_pos hch]
  · simp only [if_neg hch]
    exact s.appendBits_rule [ch == 0x31#8] ch

/-- Settles O16: the rule emits the bytes of `pack` and leaves PBUF as it is. -/
theorem pkEndRule : Obligations.PkEndRule :=
  sessionCommand_of_ownRule rfl nofun (fun _ => beq_iff_eq) fun _ _ => rfl

/-! The layout of the packed bytes (R160, R161). -/

/-- The marker and the bits beyond the bit-string's whole bytes fill one byte. -/
theorem padding_add_mod (len : Nat) : padding len + len % 8 = 8 := by
  unfold padding; omega

/-- Marker and bit-string fill one byte more than the bit-string's whole bytes. -/
theorem padding_add_self (len : Nat) : padding len + len = 8 * (len / 8 + 1) := by
  have hpad := padding_add_mod len
  omega

theorem marker_append_length (B : Bits) : (marker B.length ++ B).length = 8 * (B.length / 8 + 1) := by
  rw [List.length_append, marker_length, padding_add_self]

theorem pack_length (B : Bits) : (pack B).length = B.length / 8 + 1 :=
  groupBytes_length _ _ (marker_append_length B)

theorem bitsOfBytes_pack (B : Bits) : bitsOfBytes (pack B) = marker B.length ++ B :=
  bitsOfBytes_groupBytes _ _ (marker_append_length B)

/-- Settles O43: marker and bit-string are a whole number of bytes, so grouping them loses no bit. -/
theorem packLayout : Obligations.PackLayout := by
  intro B
  have hpad := padding_add_mod B.length
  have htotal := padding_add_self B.length
  refine ⟨?_, ?_, ?_, bitsOfBytes_pack B, ?_⟩
  · omega
  · omega
  · omega
  · rw [pack_length, htotal]

/-! Bit-strings and byte sequences as numbers (R162 d). -/

theorem bitsValue_concat (B : Bits) (v : Bool) : bitsValue (B ++ [v]) = 2 * bitsValue B + v.toNat := by
  simp [bitsValue]

theorem bytesValue_concat (ys : List Byte) (y : Byte) :
    bytesValue (ys ++ [y]) = 256 * bytesValue ys + y.toNat := by
  simp [bytesValue]

theorem bitsValue_append (A B : Bits) : bitsValue (A ++ B) = bitsValue A * 2 ^ B.length + bitsValue B := by
  induction B using List.reverseRecOn with
  | nil => simp [bitsValue]
  | append_singleton rest v ih =>
    rw [← List.append_assoc, bitsValue_concat, ih, bitsValue_concat, List.length_append, List.length_singleton]
    ring

theorem bitsValue_lt (B : Bits) : bitsValue B < 2 ^ B.length := by
  induction B using List.reverseRecOn with
  | nil => decide
  | append_singleton rest v ih =>
    have hv := v.toNat_le
    rw [bitsValue_concat, List.length_append, List.length_singleton, pow_succ]
    omega

theorem bitsValue_replicate_false (n : Nat) : bitsValue (List.replicate n false) = 0 := by
  induction n with
  | zero => rfl
  | succ n ih => rwa [List.replicate_succ, bitsValue, List.foldl_cons]

/-- The marker puts a leading one above the bits after it. -/
theorem bitsValue_marker_append (len : Nat) (B : Bits) :
    bitsValue (marker len ++ B) = 2 ^ B.length + bitsValue B := by
  have hmarker : bitsValue (marker len) = 1 := by
    rw [marker, bitsValue_append, bitsValue_replicate_false]
    rfl
  rw [bitsValue_append, hmarker, one_mul]

theorem bitsValue_bitsOfByte (y : Byte) : bitsValue (bitsOfByte y) = y.toNat := by
  revert y; decide

theorem bytesValue_eq_bitsValue (ys : List Byte) : bytesValue ys = bitsValue (bitsOfBytes ys) := by
  induction ys using List.reverseRecOn with
  | nil => rfl
  | append_singleton rest y ih =>
    have hbits : bitsOfBytes (rest ++ [y]) = bitsOfBytes rest ++ bitsOfByte y := by simp [bitsOfBytes]
    rw [bytesValue_concat, ih, hbits, bitsValue_append, bitsValue_bitsOfByte, bitsOfByte_length]
    omega

/-! The consequences of the layout (R162). -/

theorem bytesValue_pack (B : Bits) : bytesValue (pack B) = 2 ^ B.length + bitsValue B := by
  rw [bytesValue_eq_bitsValue, bitsOfBytes_pack, bitsValue_marker_append]

/-- The first byte is the marker and the bits of the bit-string that fill it up. -/
theorem bitsOfByte_of_pack_eq_cons {B : Bits} {y : Byte} {rest : List Byte} (h : pack B = y :: rest) :
    bitsOfByte y = marker B.length ++ B.take (B.length % 8) := by
  have hpad := padding_add_mod B.length
  have hfill : 8 - padding B.length = B.length % 8 := by omega
  have hmarker : (marker B.length).length ≤ 8 := by rw [marker_length]; omega
  calc bitsOfByte y
    _ = (bitsOfBytes (pack B)).take 8 := by rw [h, bitsOfBytes_cons, List.take_left' (bitsOfByte_length y)]
    _ = marker B.length ++ B.take (B.length % 8) := by
      rw [bitsOfBytes_pack, List.take_append, List.take_of_length_le hmarker, marker_length, hfill]

/-- The highest one of the first byte is the marker's. -/
theorem log2_of_pack_eq_cons {B : Bits} {y : Byte} {rest : List Byte} (h : pack B = y :: rest) :
    y.toNat ≠ 0 ∧ y.toNat.log2 = B.length % 8 := by
  have hlt := bitsValue_lt (B.take (B.length % 8))
  have hval := bitsValue_marker_append B.length (B.take (B.length % 8))
  rw [← bitsOfByte_of_pack_eq_cons h, bitsValue_bitsOfByte] at hval
  rw [List.length_take_of_le (Nat.mod_le ..)] at hlt hval
  have hpos := Nat.two_pow_pos (B.length % 8)
  have hne : y.toNat ≠ 0 := by omega
  refine ⟨hne, (Nat.log2_eq_iff hne).2 ⟨?_, ?_⟩⟩
  · omega
  · rw [pow_succ]; omega

theorem afterMarker_marker_append (len : Nat) (B : Bits) : afterMarker (marker len ++ B) = B := by
  rw [marker, List.append_assoc]
  induction padding len - 1 with
  | zero => rfl
  | succ n ih => rwa [List.replicate_succ, List.cons_append, afterMarker]

/-- `afterMarker` undoes `pack` on the bits of the packed bytes. -/
theorem pack_injective : Function.Injective pack := by
  refine Function.LeftInverse.injective (g := fun ys => afterMarker (bitsOfBytes ys)) fun B => ?_
  simp only [bitsOfBytes_pack, afterMarker_marker_append]

/-- Settles O44: the byte count and the first byte from the layout, injectivity from the marker's removal, the
value from the marker's leading one. -/
theorem packConsequences : Obligations.PackConsequences := by
  refine ⟨pack_length, fun B => ?_, fun _ _ h => pack_injective h, bytesValue_pack, rfl⟩
  obtain ⟨y, rest, h⟩ := List.exists_cons_of_length_eq_add_one (pack_length B)
  obtain ⟨hne, hlog⟩ := log2_of_pack_eq_cons h
  exact ⟨y, rest, h, fun e => hne (by rw [e]; rfl), by rw [hlog]⟩

end Sys2Proof.Machine
end

section
/-! SUPPORT. The statements about the decode session: the walk step (43_unpack_decode.md R188), its three
commands (R185, R186, R189), `unpack` (R180 to R183, R192), and a whole raw session (R190). -/

namespace Sys2Proof

theorem encode_dkBegin (raw : Bool) :
    encode (.dkBegin raw) = 0xD0000000#32 ||| (BitVec.ofBool raw).setWidth 32 := by
  simp [encode, formatWord_eq_or, setWidth_bitField]

theorem encode_dkByte (byte : Byte) : encode (.dkByte byte) = 0xE0000000#32 ||| byte.setWidth 32 := by
  simp [encode, formatWord_eq_or]

end Sys2Proof

namespace Sys2Proof.Machine

open Sys2Proof.Claims

/-! The walk step from a valid internal node, by the entry of the child the bit selects (R188). -/

theorem isInternal_iff {e : Option TrEntry} : isInternal e = true ↔ ∃ left right, e = some (.int left right) := by
  rcases e with _ | ⟨sym⟩ | ⟨left, right⟩ <;> simp [isInternal]

section
variable {s : State} {v : Bool} {left right : NodeIndex} (hnode : s.readTr s.cur = some (.int left right))
include hnode

theorem State.walk_of_invalid (hchild : s.readTr (if v then right else left) = none) :
    s.walk v = .error (s.raise .tree (if v then right else left)) := by
  simp only [State.walk, hnode, hchild]

theorem State.walk_of_leaf {sym : Symbol} (hchild : s.readTr (if v then right else left) = some (.leaf sym)) :
    s.walk v = .ok { s with decOut := s.decOut ++ [sym.setWidth 8], cur := s.root } := by
  simp only [State.walk, hnode, hchild, symbolItem_eq_setWidth]
  rfl

theorem State.walk_of_internal {l r : NodeIndex} (hchild : s.readTr (if v then right else left) = some (.int l r)) :
    s.walk v = .ok { s with cur := if v then right else left } := by
  simp only [State.walk, hnode, hchild]
  rfl

end

/-- Settles O19: by the entry of the child. -/
theorem walkStepRule : Obligations.WalkStepRule := fun _ _ _ _ hnode =>
  ⟨State.walk_of_invalid hnode, fun _ => State.walk_of_leaf hnode, fun _ _ => State.walk_of_internal hnode⟩

/-! Payload bits through the session (R186). -/

theorem rawItem_eq_ite (v : Bool) : rawItem v = if v then 0x81#8 else 0x80#8 := by
  revert v; decide

/-- The items of a raw session for these payload bits (R104). `feed_of_raw` ties it to `feed`. -/
def State.emitRaw (s : State) (B : Bits) : State :=
  { s with decOut := s.decOut ++ B.map fun v => if v then 0x81#8 else 0x80#8 }

theorem State.emitRaw_nil (s : State) : s.emitRaw [] = s := by simp [State.emitRaw]

theorem State.emitRaw_append (s : State) (A B : Bits) : s.emitRaw (A ++ B) = (s.emitRaw A).emitRaw B := by
  simp [State.emitRaw]

/-- A raw session emits every bit and does nothing else. -/
theorem State.feed_of_raw {s : State} (hraw : s.raw = true) (B : Bits) : s.feed B = s.emitRaw B := by
  induction B generalizing s with
  | nil => exact s.emitRaw_nil.symm
  | cons v vs ih =>
    have hemit : s.emitDec (rawItem v) = s.emitRaw [v] := by rw [rawItem_eq_ite]; rfl
    rw [State.feed, if_pos hraw, hemit, ih (s := s.emitRaw [v]) hraw, ← State.emitRaw_append, List.singleton_append]

theorem State.feed_of_walk_ok {s t : State} {v : Bool} (hraw : s.raw = false) (h : s.walk v = .ok t) (vs : Bits) :
    s.feed (v :: vs) = t.feed vs := by
  simp only [State.feed, hraw, h, Bool.false_eq_true, if_false]

theorem State.feed_of_walk_error {s t : State} {v : Bool} (hraw : s.raw = false) (h : s.walk v = .error t)
    (vs : Bits) : s.feed (v :: vs) = t := by
  simp only [State.feed, hraw, h, Bool.false_eq_true, if_false]

/-- The state a walk by indices describes: the items emitted, CUR where it stands, E_TREE when an entry stopped
it. `feed_of_symbol` ties it to `feed`. -/
def State.walked (s : State) : List Byte × NodeIndex × Option NodeIndex → State
  | (out, cur, none) => { s with decOut := s.decOut ++ out, cur := cur }
  | (out, cur, some bad) => { s with decOut := s.decOut ++ out, cur := cur }.raise .tree bad

/-- A walk emits behind what was emitted before it, and where CUR stood before it no longer shows. -/
theorem State.walked_of_emitted (s : State) (before : List Byte) (c : NodeIndex)
    (w : List Byte × NodeIndex × Option NodeIndex) :
    State.walked { s with decOut := s.decOut ++ before, cur := c } w = s.walked (before ++ w.1, w.2) := by
  obtain ⟨out, cur, _ | bad⟩ := w <;> simp only [State.walked, List.append_assoc]

theorem State.walked_of_moved (s : State) (c : NodeIndex) (w : List Byte × NodeIndex × Option NodeIndex) :
    State.walked { s with cur := c } w = s.walked w := by
  obtain ⟨out, cur, _ | bad⟩ := w <;> rfl

/-- A symbol session on an internal node, under an internal root, walks as `walkIndex` does. -/
theorem State.feed_of_symbol {s : State} (hraw : s.raw = false) (hcur : s.internalAt s.cur)
    (hroot : s.internalAt s.root) (B : Bits) : s.feed B = s.walked (walkIndex s.readTr s.root s.cur B) := by
  induction B generalizing s with
  | nil => simp [State.feed, walkIndex, State.walked]
  | cons v vs ih =>
    obtain ⟨left, right, hnode⟩ := isInternal_iff.1 hcur
    rcases hchild : s.readTr (if v then right else left) with _ | ⟨sym⟩ | ⟨l, r⟩ <;>
      simp only [walkIndex, hnode, hchild]
    case none =>
      rw [State.feed_of_walk_error hraw (State.walk_of_invalid hnode hchild)]
      simp [State.walked]
    case some.leaf =>
      rw [State.feed_of_walk_ok hraw (State.walk_of_leaf hnode hchild)]
      exact (ih (s := { s with decOut := s.decOut ++ [sym.setWidth 8], cur := s.root }) hraw hroot hroot).trans
        (s.walked_of_emitted _ _ _)
    case some.int =>
      have hinternal : s.internalAt (if v then right else left) := isInternal_iff.2 ⟨l, r, hchild⟩
      rw [State.feed_of_walk_ok hraw (State.walk_of_internal hnode hchild)]
      exact (ih (s := { s with cur := if v then right else left }) hraw hinternal hroot).trans (s.walked_of_moved _ _)

/-! The first byte of a stream: its marker and its payload (R181). -/

/-- Below its highest one a byte carries a payload, and above it just the marker of a payload of that length. -/
theorem bitsOfByte_eq_marker_append {y : Byte} (hy : y ≠ 0#8) :
    bitsOfByte y = marker (headPayload y).length ++ headPayload y := by
  revert y; decide

theorem headPayload_eq_drop {y : Byte} (hy : y ≠ 0#8) : headPayload y = (bitsOfByte y).drop (8 - y.toNat.log2) := by
  revert y; decide

/-- Settles O45: the first byte alone decides, and its payload is what stands below its highest one. -/
theorem unpackRule : Obligations.UnpackRule := by
  refine ⟨fun y rest hy => ?_, fun rest => ?_, rfl⟩
  · rw [unpack_cons, headPayload_eq_drop hy, decide_eq_true hy]
  · exact unpack_cons 0#8 rest

theorem byteOfBits_getLsbD (y : Byte) : byteOfBits (y.getLsbD 7) (y.getLsbD 6) (y.getLsbD 5) (y.getLsbD 4)
    (y.getLsbD 3) (y.getLsbD 2) (y.getLsbD 1) (y.getLsbD 0) = y := by
  revert y; decide

/-- Grouping the bits of bytes gives the bytes back. -/
theorem groupBytes_bitsOfBytes (ys : List Byte) : groupBytes (bitsOfBytes ys) = ys := by
  induction ys with
  | nil => rfl
  | cons y ys ih =>
    simp only [bitsOfBytes_cons, bitsOfByte, List.cons_append, List.nil_append, groupBytes, byteOfBits_getLsbD, ih]

/-- Whole bytes behind a bit-string do not change its marker. -/
theorem marker_add_bytes (len k : Nat) : marker (len + 8 * k) = marker len := by
  simp [marker, padding]

theorem bitsOfBytes_length (ys : List Byte) : (bitsOfBytes ys).length = 8 * ys.length := by
  induction ys with
  | nil => rfl
  | cons y ys ih =>
    rw [bitsOfBytes_cons, List.length_append, bitsOfByte_length, ih, List.length_cons]
    omega

/-- Settles O47: `pack` puts back the marker the first byte had, since the bytes behind it do not change it. -/
theorem packAfterUnpack : Obligations.PackAfterUnpack := by
  refine ⟨fun y rest hy => ?_, fun rest => ?_⟩
  · have hmarker : marker (headPayload y ++ bitsOfBytes rest).length = marker (headPayload y).length := by
      rw [List.length_append, bitsOfBytes_length, marker_add_bytes]
    calc pack (unpack (y :: rest)).1
      _ = groupBytes (marker (headPayload y).length ++ (headPayload y ++ bitsOfBytes rest)) := by
        rw [unpack_cons, pack, hmarker]
      _ = groupBytes (bitsOfBytes (y :: rest)) := by
        rw [bitsOfBytes_cons, bitsOfByte_eq_marker_append hy, List.append_assoc]
      _ = y :: rest := groupBytes_bitsOfBytes (y :: rest)
  · rw [unpack_cons, unpack_cons]
    exact ⟨rfl, rfl, rfl⟩

/-! The commands (R185, R186, R189). -/

/-- Settles O17: the root entry is looked at in a symbol session only. -/
theorem dkBeginRule : Obligations.DkBeginRule := by
  refine fun raw => sessionCommand_of_ownRule (encode_dkBegin raw) nofun (fun _ => beq_iff_eq) fun s _ => ?_
  have hbad : (raw = false ∧ ¬ ∃ left right, s.readTr s.root = some (.int left right)) ↔
      raw = false ∧ isInternal (s.readTr s.root) = false := by
    rw [← isInternal_iff, Bool.not_eq_true]
  split
  case isTrue h => exact if_pos (hbad.1 h)
  case isFalse h => exact if_neg (mt hbad.2 h)

theorem payloadOf_head {y : Byte} (hy : y ≠ 0#8) : payloadOf .head y = headPayload y :=
  (headPayload_eq_drop hy).symm

/-- DK_BYTE's rule, by whether the byte is a first byte without a marker. -/
theorem ownRule_dkByte (byte : Byte) (s : State) : ownRule (.dkByte byte) s =
    if s.phase = .head ∧ byte = 0#8 then { s with phase := .body }.raise .noMark 0#8
    else State.feed { s with phase := .body } (payloadOf s.phase byte) := by
  dsimp only [ownRule]
  split
  case h_1 hbody =>
    have e : { s with phase := .body } = s := by rw [← hbody]
    rw [e, hbody]
    rfl
  case h_2 hhead =>
    by_cases hy : byte = 0#8
    · rw [if_pos hy, if_pos ⟨hhead, hy⟩]
    · rw [if_neg hy, if_neg (fun h => hy h.2), hhead, payloadOf_head hy]

/-- Settles O18: a first byte without a marker; else its payload bits, emitted in a raw session and walked in a
symbol session. -/
theorem dkByteRule : Obligations.DkByteRule := by
  refine fun byte => sessionCommand_of_ownRule (encode_dkByte byte) nofun (fun _ => beq_iff_eq) fun s _ => ?_
  rw [ownRule_dkByte]
  unfold DkByteEffect
  split
  case isTrue => rfl
  case isFalse =>
    split
    case isTrue hraw => exact State.feed_of_raw (s := { s with phase := .body }) hraw _
    case isFalse hraw =>
      intro hcur hroot
      have hfeed : State.feed { s with phase := .body } (payloadOf s.phase byte) =
          State.walked { s with phase := .body } (walkIndex s.readTr s.root s.cur (payloadOf s.phase byte)) :=
        State.feed_of_symbol (s := { s with phase := .body }) (Bool.eq_false_iff.2 hraw) hcur hroot _
      rw [hfeed]
      rcases walkIndex s.readTr s.root s.cur (payloadOf s.phase byte) with ⟨out, cur, _ | bad⟩ <;> rfl

/-- Settles O20: where no byte was given the walk is at the root, so E_NOMARK is the only fault. -/
theorem dkEndRule : Obligations.DkEndRule := by
  refine sessionCommand_of_ownRule rfl nofun (fun _ => beq_iff_eq) fun s _ hroot => ?_
  dsimp only [ownRule]
  split
  case isTrue hhead =>
    have hwalk : ¬ (s.raw = false ∧ s.cur ≠ s.root) := fun h => h.2 (hroot hhead)
    exact (if_neg hwalk).trans (if_pos (s.raise_err_ne_zero _ _))
  case isFalse =>
    split
    case isTrue hwalk => exact if_pos hwalk
    case isFalse hwalk =>
      split
      case isTrue herr => exact (if_neg hwalk).trans (if_pos herr)
      case isFalse herr => exact (if_neg hwalk).trans (if_neg herr)

/-! A list of commands, each of which answers a next state (R258). -/

/-- The state a list of commands leaves. `execAll_eq_afterAll` ties it to `execAll`. -/
def afterAll (is : List Instr) (s : State) : State := is.foldl (fun t i => after i t) s

theorem afterAll_cons (i : Instr) (is : List Instr) (s : State) : afterAll (i :: is) s = afterAll is (after i s) :=
  rfl

theorem afterAll_concat (is : List Instr) (i : Instr) (s : State) :
    afterAll (is ++ [i]) s = after i (afterAll is s) := by
  simp [afterAll]

theorem execAll_eq_afterAll (is : List Instr) (s : State) : execAll is s = .next (afterAll is s) := by
  induction is generalizing s with
  | nil => rfl
  | cons i is ih => rw [execAll, exec_eq_after]; exact ih (after i s)

/-! A raw session (R190). -/

/-- The block is in a raw session. -/
abbrev State.inRawSession (s : State) : Prop := s.mode = .dec ∧ s.raw = true

/-- E_NOMARK, which does not stop the session, unless a marker was found (R182, R183). -/
def State.noMarkUnless (s : State) (found : Bool) : State := if found then s else s.raise .noMark 0#8

theorem State.noMarkUnless_phase (s : State) (found : Bool) : (s.noMarkUnless found).phase = s.phase := by
  cases found <;> rfl

theorem State.inRawSession.noMarkUnless {s : State} (hs : s.inRawSession) (found : Bool) :
    (s.noMarkUnless found).inRawSession := by
  cases found <;> exact hs

theorem State.inRawSession.after_eq_ownRule {s : State} (hs : s.inRawSession) {i : Instr}
    (ha : admittedIn i .dec = true) : after i s = ownRule i s :=
  after_of_admitted (by simp [hs.1]) (hs.1 ▸ ha)

/-- The first byte of a raw session: E_NOMARK for a byte without a marker, and the payload below the marker. -/
theorem State.inRawSession.after_dkByte_head {s : State} (hs : s.inRawSession) (hhead : s.phase = .head) (y : Byte) :
    after (.dkByte y) s =
      State.emitRaw (State.noMarkUnless { s with phase := .body } (decide (y ≠ 0#8))) (headPayload y) := by
  rw [hs.after_eq_ownRule rfl]
  simp only [ownRule, hhead]
  by_cases hy : y = 0#8
  · rw [if_pos hy, hy]
    exact (State.emitRaw_nil _).symm
  · rw [if_neg hy, decide_eq_true hy]
    exact State.feed_of_raw (s := { s with phase := .body }) hs.2 _

/-- The later bytes of a raw session: eight payload bits each. -/
theorem State.inRawSession.afterAll_dkByte_body {s : State} (hs : s.inRawSession) (hbody : s.phase = .body)
    (ys : List Byte) : afterAll (ys.map .dkByte) s = s.emitRaw (bitsOfBytes ys) := by
  induction ys generalizing s with
  | nil => exact s.emitRaw_nil.symm
  | cons y ys ih =>
    have hbyte : after (.dkByte y) s = s.emitRaw (bitsOfByte y) := by
      rw [hs.after_eq_ownRule rfl, ← State.feed_of_raw hs.2]
      simp only [ownRule, hbody]
    rw [List.map_cons, afterAll_cons, hbyte, ih (s := s.emitRaw (bitsOfByte y)) hs hbody, ← State.emitRaw_append,
      bitsOfBytes_cons]

/-- The end of a raw session, which has no walk to check: only a missing marker keeps it from ending well. -/
theorem State.endStream_of_raw {s : State} (hraw : s.raw = true) (he : s.err = 0#8) (found : Bool) (B : Bits) :
    ((s.noMarkUnless found).emitRaw B).endStream =
      if found then { s.emitRaw B with mode := .idle, done := true }
      else { (s.raise .noMark 0#8).emitRaw B with mode := .fault } := by
  have hwalk : ¬ (s.raw = false ∧ s.cur ≠ s.root) := fun h => by simp [hraw] at h
  cases found with
  | true => exact (if_neg hwalk).trans (if_neg (not_not.2 he))
  | false => exact (if_neg hwalk).trans (if_pos (s.raise_err_ne_zero _ _))

/-- All bytes of a raw session, at least one: its head and its body together are `unpack`. -/
theorem State.inRawSession.afterAll_dkByte {s : State} (hs : s.inRawSession) (hhead : s.phase = .head) (y : Byte)
    (ys : List Byte) : afterAll ((y :: ys).map .dkByte) s = State.emitRaw
      (State.noMarkUnless { s with phase := .body } (unpack (y :: ys)).2) (unpack (y :: ys)).1 := by
  have hs' := State.inRawSession.noMarkUnless (s := { s with phase := .body }) hs (decide (y ≠ 0#8))
  have hbody := State.noMarkUnless_phase { s with phase := .body } (decide (y ≠ 0#8))
  rw [List.map_cons, afterAll_cons, hs.after_dkByte_head hhead, unpack_cons, State.emitRaw_append]
  exact State.inRawSession.afterAll_dkByte_body (s := State.emitRaw _ _) hs' hbody ys

/-- The bytes of a raw session and DK_END, whether or not there were any bytes. -/
theorem State.inRawSession.afterAll_bytes {s : State} (hs : s.inRawSession) (hhead : s.phase = .head)
    (bytes : List Byte) : ∃ p, afterAll (bytes.map .dkByte ++ [.dkEnd]) s = State.endStream
      (State.emitRaw (State.noMarkUnless { s with phase := p } (unpack bytes).2) (unpack bytes).1) := by
  rw [afterAll_concat]
  cases bytes with
  | nil =>
    have e : { s with phase := .head } = s := by rw [← hhead]
    refine ⟨.head, (hs.after_eq_ownRule (i := .dkEnd) rfl).trans ?_⟩
    rw [e]
    exact congrArg State.endStream ((if_pos hhead).trans (State.emitRaw_nil _).symm)
  | cons y ys =>
    refine ⟨.body, ?_⟩
    rw [hs.afterAll_dkByte hhead]
    have hs' := State.inRawSession.noMarkUnless (s := { s with phase := .body }) hs (unpack (y :: ys)).2
    have hbody : (State.noMarkUnless { s with phase := .body } (unpack (y :: ys)).2).phase = .body :=
      State.noMarkUnless_phase _ _
    refine (State.inRawSession.after_eq_ownRule (s := State.emitRaw _ _) hs' (i := .dkEnd) rfl).trans ?_
    refine congrArg State.endStream (if_neg ?_)
    exact fun hhead => nomatch hbody.symm.trans hhead

/-- Settles O49: DK_BEGIN opens a raw session, its bytes are `unpack`ed, and DK_END asks for the marker. -/
theorem rawSessionComputesUnpack : Obligations.RawSessionComputesUnpack := by
  intro s bytes hm he
  have hbegin : after (.dkBegin true) s =
      { s with raw := true, phase := .head, cur := s.root, done := false, mode := .dec } :=
    after_of_admitted (by simp [hm]) (by simp [hm, admittedIn])
  have hs : (after (.dkBegin true) s).inRawSession := by rw [hbegin]; exact ⟨rfl, rfl⟩
  obtain ⟨p, hbytes⟩ := hs.afterAll_bytes (by rw [hbegin]) bytes
  refine ⟨_, execAll_eq_afterAll _ _, ?_⟩
  rw [rawSession, afterAll_cons, hbytes,
    State.endStream_of_raw (s := { after (.dkBegin true) s with phase := p }) hs.2 (by rw [hbegin]; exact he), hbegin]
  cases (unpack bytes).2 with
  | true => exact ⟨rfl, ⟨rfl, rfl, he⟩, rfl, rfl, rfl, rfl⟩
  | false =>
    have herr : s.err ||| Cause.noMark.errBit = 0x04#8 := by rw [he]; rfl
    exact ⟨rfl, ⟨rfl, herr⟩, rfl, rfl, rfl, rfl⟩

end Sys2Proof.Machine
end

section
/-! SUPPORT. The statements about the system commands (44_system.md R200 to R202), which every mode admits. -/

namespace Sys2Proof.Machine

open Sys2Proof.Claims

/-- A command that FAULT admits is under no mode check: it runs its own rule in every mode (R98, R99). -/
theorem after_of_admitted_in_fault {i : Instr} (hi : admittedIn i .fault = true) (s : State) :
    after i s = ownRule i s :=
  (after_eq i s).trans (if_pos hi)

/-- The counterpart of `sessionCommand_of_ownRule` for a command admitted in every mode: what is its own is the
effect of its rule, from every state. -/
theorem systemCommand_of_ownRule {i : Instr} {word : Word} {effect : State → State → Prop}
    (hword : encode i = word) (hadmit : admittedIn i .fault = true) (heffect : ∀ s, effect s (ownRule i s)) :
    SystemCommand i word i.row.mask effect := by
  subst hword
  constructor
  case encodes => rfl
  case decodes => exact decode_encode i
  case illegal => exact fun w hop hmask s => deliverWord_of_illegal (decode_eq_none_of_mask_ne hop hmask) s
  case runs =>
    exact fun s => ⟨ownRule i s, after_of_admitted_in_fault hadmit s ▸ exec_eq_after i s, heffect s⟩

/-- Settles O3: the rule leaves the state as it is. -/
theorem nopRule : Obligations.NopRule :=
  systemCommand_of_ownRule (by decide) rfl fun _ => rfl

/-- Settles O4: the rule resets the block and leaves the traces beside it. -/
theorem rstRule : Obligations.RstRule :=
  systemCommand_of_ownRule (by decide) rfl fun _ => ⟨atReset_of_toBlock rfl, rfl, rfl, rfl⟩

/-- Settles O5: the rule emits what the register reads, for each of the four numbers. -/
theorem rdRegRule : Obligations.RdRegRule := fun r =>
  systemCommand_of_ownRule (encode_rdReg r) rfl fun _ => rfl

end Sys2Proof.Machine
end

section
/-! SUPPORT. The statement about fault entry (60_exceptions.md R216): what `raise` writes and what it leaves. -/

namespace Sys2Proof.Machine

open Sys2Proof.Claims

/-- E_NOMARK is the only cause that does not stop the session at once (R211). -/
theorem Cause.stops_iff (c : Cause) : c.stops = true ↔ c ≠ .noMark := by cases c <;> decide

/-- Fault entry sets the cause's bit of ERR and keeps the others (R216). -/
theorem State.raise_err_getLsbD (s : State) (c : Cause) (info : Byte) {k : Nat} (hk : k < 8) :
    (s.raise c info).err.getLsbD k = (s.err.getLsbD k || k == c.errIndex) := by
  rw [State.raise_err, BitVec.getLsbD_or, c.errBit_getLsbD hk]

/-- The first fault is the one that is recorded, under its code (R28, R29). -/
theorem State.raise_records_first {s : State} (c : Cause) (info : Byte) (h : s.fcause = 0#4) :
    (s.raise c info).fcause.toNat = c.errIndex + 1 ∧ (s.raise c info).finfo = info := by
  rw [State.raise_fcause, State.raise_finfo, if_pos h, if_pos h]
  exact ⟨c.code_toNat, rfl⟩

/-- A later fault leaves the record of the first (R28, R29). -/
theorem State.raise_keeps_record {s : State} (c : Cause) (info : Byte) (h : s.fcause ≠ 0#4) :
    (s.raise c info).fcause = s.fcause ∧ (s.raise c info).finfo = s.finfo :=
  ⟨if_neg h, if_neg h⟩

/-- Settles O21: fault entry's writes, component by component; the last clause is its frame, where both
states are the same record update. -/
theorem faultEntryRule : Obligations.FaultEntryRule := by
  refine ⟨rfl, fun s c info => ⟨?bits, ?first, ?later, ?done, ?stops, ?goesOn, ?frame⟩⟩
  case bits => exact fun k hk => s.raise_err_getLsbD c info hk
  case first => exact State.raise_records_first c info
  case later => exact State.raise_keeps_record c info
  case done => exact s.raise_done c info
  case stops => exact fun hc => s.raise_mode_of_stops info (c.stops_iff.2 hc)
  case goesOn => rfl
  case frame => rfl

end Sys2Proof.Machine
end

section
/-! SUPPORT. The invariants of the fault record (10_state.md R27 to R29, 60_exceptions.md R219) and of the data
(10_state.md R20, R40 to R43, 00_scope.md R15): at reset, and under every step. -/

namespace Sys2Proof.Machine

open Sys2Proof.Claims

/-! The fault record speaks of ERR, FCAUSE and FINFO alone. -/

theorem State.RecordInv.of_sameRecord {s t : State} (h : s.RecordInv) (hr : SameRecord t s) : t.RecordInv := by
  obtain ⟨herr, hcause, hinfo⟩ := hr
  exact {
    shape := herr ▸ h.shape
    first := by rw [herr, hcause]; exact h.first
    marked := by rw [herr, hcause, hinfo]; exact h.marked
    noInfo := by rw [hcause, hinfo]; exact h.noInfo }

theorem State.recordInv_of_no_fault {s : State} (herr : s.err = 0#8) (hcause : s.fcause = 0#4)
    (hinfo : s.finfo = 0#8) : s.RecordInv where
  shape := .inl herr
  first h := absurd hcause h
  marked h := by rw [herr] at h; exact absurd h (by decide)
  noInfo _ := hinfo

/-- Only E_NOMARK's bit holds the E_NOMARK flag. -/
theorem Cause.eq_noMark_of_errBit {c : Cause} (h : c.errBit &&& Cause.noMark.errBit = Cause.noMark.errBit) :
    c = .noMark := by
  revert h; cases c <;> decide

/-- The first fault is recorded with its code, and E_NOMARK without information (R182, R189). -/
theorem State.recordInv_raise_first {s : State} (herr : s.err = 0#8) (hcause : s.fcause = 0#4) {c : Cause}
    {info : Byte} (hc : c = .noMark → info = 0#8) : (s.raise c info).RecordInv := by
  have he : (s.raise c info).err = c.errBit := by rw [State.raise_err, herr, BitVec.zero_or]
  have hf : (s.raise c info).fcause = c.code := if_pos hcause
  have hi : (s.raise c info).finfo = info := if_pos hcause
  constructor
  case shape => exact .inr (.inl ⟨c, he⟩)
  case first => exact fun _ => ⟨c, hf, by rw [he, BitVec.and_self]⟩
  case marked =>
    intro h
    have hmark : c = .noMark := Cause.eq_noMark_of_errBit (he ▸ h)
    exact ⟨hf.trans (by rw [hmark]), hi.trans (hc hmark)⟩
  case noInfo => exact fun h => absurd h (s.raise_fcause_ne_zero c info)

/-- The faults that R219 lists after E_NOMARK. -/
def Cause.afterNoMark (c : Cause) : Prop := c = .tree ∨ c = .midWalk ∨ c = .seq ∨ c = .illegal

theorem Cause.afterNoMark.stops {c : Cause} (hc : c.afterNoMark) : c.stops = true := by
  rcases hc with rfl | rfl | rfl | rfl <;> rfl

/-- A fault after E_NOMARK leaves E_NOMARK's record. -/
theorem State.RecordInv.raise_after_noMark {s : State} (h : s.RecordInv) (herr : s.err = Cause.noMark.errBit)
    {c : Cause} (hc : c = .noMark ∨ c.afterNoMark) (info : Byte) : (s.raise c info).RecordInv := by
  have hmarked := h.marked (by rw [herr, BitVec.and_self])
  obtain ⟨hcause, hinfo⟩ := hmarked
  have hne : s.fcause ≠ 0#4 := hcause ▸ Cause.noMark.code_ne_zero
  obtain ⟨hf, hi⟩ := State.raise_keeps_record c info hne
  have he : (s.raise c info).err = Cause.noMark.errBit ||| c.errBit := by rw [State.raise_err, herr]
  constructor
  case shape =>
    refine .inr (hc.elim (fun hmark => .inl ⟨.noMark, ?_⟩) fun hlater => .inr ⟨c, hlater, he⟩)
    rw [he, hmark, BitVec.or_self]
  case first =>
    refine fun _ => ⟨.noMark, hf.trans hcause, ?_⟩
    rw [he]
    cases c <;> decide
  case marked => exact fun _ => ⟨hf.trans hcause, hi.trans hinfo⟩
  case noInfo => exact fun h => absurd h (s.raise_fcause_ne_zero c info)

/-! By mode: what stands in the record when a fault is raised (R30). -/

/-- In IDLE and PACK any fault is the first. -/
theorem State.SessionInv.recordInv_raise_of_quiet {s : State} (hs : s.SessionInv)
    (hm : s.mode = .idle ∨ s.mode = .pack) {c : Cause} (hc : c.stops = true) (info : Byte) :
    (s.raise c info).RecordInv :=
  have herr := hs.quiet hm
  State.recordInv_raise_first herr (hs.recorded.2 herr) fun h => absurd h (c.stops_iff.1 hc)

/-- In DEC a fault is the first or comes after E_NOMARK. -/
theorem State.SessionInv.recordInv_raise_of_dec {s : State} (hs : s.SessionInv) (h : s.RecordInv)
    (hm : s.mode = .dec) {c : Cause} {info : Byte} (hc : c = .noMark ∧ info = 0#8 ∨ c.afterNoMark) :
    (s.raise c info).RecordInv := by
  rcases hs.decoding hm with herr | herr
  · refine State.recordInv_raise_first herr (hs.recorded.2 herr) fun hmark => ?_
    exact hc.elim And.right fun hlater => absurd hmark (c.stops_iff.1 hlater.stops)
  · exact h.raise_after_noMark herr (hc.imp_left And.left) info

/-- E_SEQ and E_ILLEGAL can come in every mode but FAULT. -/
theorem State.SessionInv.recordInv_raise {s : State} (hs : s.SessionInv) (h : s.RecordInv) (hm : s.mode ≠ .fault)
    {c : Cause} (hc : c.afterNoMark) (info : Byte) : (s.raise c info).RecordInv := by
  match hmode : s.mode with
  | .idle => exact hs.recordInv_raise_of_quiet (.inl hmode) hc.stops info
  | .pack => exact hs.recordInv_raise_of_quiet (.inr hmode) hc.stops info
  | .dec => exact hs.recordInv_raise_of_dec h hmode (.inr hc)
  | .fault => exact absurd hmode hm

/-! The fault record under the commands' own rules. -/

theorem State.RecordInv.appendBits {s : State} (h : s.RecordInv) (hs : s.SessionInv) (hm : s.mode = .pack)
    (bits : Bits) (info : Byte) : (s.appendBits bits info).RecordInv :=
  State.appendBits_elim (hs.recordInv_raise_of_quiet (.inr hm) rfl info) (h.of_sameRecord ⟨rfl, rfl, rfl⟩)

theorem State.RecordInv.feed {s : State} (h : s.RecordInv) (hs : s.SessionInv) (hm : s.mode = .dec) (B : Bits) :
    (s.feed B).RecordInv := by
  obtain ⟨out, c, ⟨e, -⟩ | ⟨bad, -, -, e⟩⟩ := s.feed_cases B <;> rw [e]
  · exact h.of_sameRecord ⟨rfl, rfl, rfl⟩
  · have hraise : (s.raise .tree bad).RecordInv := hs.recordInv_raise_of_dec h hm (.inr (.inl rfl))
    exact hraise.of_sameRecord ⟨rfl, rfl, rfl⟩

theorem State.RecordInv.endStream {s : State} (h : s.RecordInv) (hs : s.SessionInv) (hm : s.mode = .dec) :
    s.endStream.RecordInv := by
  obtain ⟨-, -, e⟩ | ⟨-, e⟩ | e := s.endStream_cases <;> rw [e]
  · exact hs.recordInv_raise_of_dec h hm (.inr (.inr (.inl rfl)))
  all_goals exact h.of_sameRecord ⟨rfl, rfl, rfl⟩

/-- Every command's own rule keeps the form of the record in a mode that admits it. -/
theorem State.RecordInv.ownRule {s : State} (h : s.RecordInv) (hs : s.SessionInv) {i : Instr}
    (ha : admittedIn i s.mode = true) : (ownRule i s).RecordInv := by
  cases i with
  | rst => exact State.recordInv_of_no_fault rfl rfl rfl
  | ctBit v =>
    have hm : s.mode = .idle ∨ s.mode = .pack := .inl (eq_of_beq ha)
    dsimp only [Machine.ownRule]
    split
    · exact hs.recordInv_raise_of_quiet hm rfl _
    · split
      · exact hs.recordInv_raise_of_quiet hm rfl _
      · exact h.of_sameRecord ⟨rfl, rfl, rfl⟩
  | pkSym sym =>
    dsimp only [Machine.ownRule]
    split
    · exact hs.recordInv_raise_of_quiet (.inr (eq_of_beq ha)) rfl _
    · exact h.appendBits hs (eq_of_beq ha) _ _
  | pkChar ch =>
    dsimp only [Machine.ownRule]
    split
    · exact hs.recordInv_raise_of_quiet (.inr (eq_of_beq ha)) rfl _
    · exact h.appendBits hs (eq_of_beq ha) _ _
  | dkBegin raw =>
    dsimp only [Machine.ownRule]
    split
    · exact hs.recordInv_raise_of_quiet (.inl (eq_of_beq ha)) rfl _
    · exact h.of_sameRecord ⟨rfl, rfl, rfl⟩
  | dkByte byte =>
    have hm : s.mode = .dec := eq_of_beq ha
    have hbody : State.RecordInv { s with phase := .body } := h.of_sameRecord ⟨rfl, rfl, rfl⟩
    rw [ownRule_dkByte]
    split
    · exact (hs.enterBody hm).recordInv_raise_of_dec hbody hm (.inl ⟨rfl, rfl⟩)
    · exact hbody.feed (hs.enterBody hm) hm _
  | dkEnd =>
    have hm : s.mode = .dec := eq_of_beq ha
    dsimp only [Machine.ownRule]
    split
    · exact (hs.recordInv_raise_of_dec h hm (.inl ⟨rfl, rfl⟩)).endStream (hs.raise_noMark hm) hm
    · exact h.endStream hs hm
  | _ => exact h.of_sameRecord ⟨rfl, rfl, rfl⟩

/-- Every command keeps it. -/
theorem State.RecordInv.after {s : State} (h : s.RecordInv) (hs : s.SessionInv) (i : Instr) :
    (after i s).RecordInv :=
  after_elim h (fun hm => hs.recordInv_raise h hm (.inr (.inr (.inl rfl))) _) (h.ownRule hs)

/-- Every step keeps it, along with the session invariants it rests on. -/
theorem State.SessionInv.recordInv_step {s t : State} (hs : s.SessionInv) (hr : s.RecordInv)
    (h : Machine.step s = .next t) : t.SessionInv ∧ t.RecordInv := by
  refine step_keeps (P := fun s => s.SessionInv ∧ s.RecordInv) ?input ?reset ?command ?illegal ⟨hs, hr⟩ h
  case input => exact fun s q h => ⟨h.1.withInput q, h.2.of_sameRecord ⟨rfl, rfl, rfl⟩⟩
  case reset => exact fun s _ => ⟨s.sessionInv_resetBlock, State.recordInv_of_no_fault rfl rfl rfl⟩
  case command => exact fun i s h => ⟨h.1.after i, h.2.after h.1 i⟩
  case illegal =>
    exact fun w s h hm => ⟨s.sessionInv_raise _ rfl, h.1.recordInv_raise h.2 hm (.inr (.inr (.inr rfl))) _⟩

/-- Settles O33: outside DEC, where a fault is the first, and in DEC, where only E_NOMARK can have come before;
over runs by induction, together with the session invariants. -/
theorem faultRecordInvariantKept : Obligations.FaultRecordInvariantKept := by
  refine ⟨fun s t hs hr h => (hs.recordInv_step hr h).2, fun t ht => ?_⟩
  refine (reachable_induction (P := fun s => s.SessionInv ∧ s.RecordInv) ?_ ?_ ht).2
  · intro _ _ _ _
    exact ⟨State.sessionInv_of_quiet (.inl rfl) rfl rfl fun _ => rfl, State.recordInv_of_no_fault rfl rfl rfl⟩
  · exact fun s t h => h.1.recordInv_step h.2

/-! The ranges of the data speak of TR, CT, PBUF and PBUF_BITS alone. -/

theorem State.DataInv.of_frame {s t : State} (h : s.DataInv) (htr : t.tr = s.tr) (hct : t.ct = s.ct)
    (hpbuf : t.pbuf = s.pbuf) (hbits : t.pbufBits = s.pbufBits) : t.DataInv where
  trForm := htr ▸ h.trForm
  ctForm := hct ▸ h.ctForm
  codes := hct ▸ h.codes
  buffer := by rw [hpbuf, hbits]; exact h.buffer
  capacity := hbits ▸ h.capacity

/-- With the tables and PBUF empty only the capacity is left to ask for. -/
theorem State.dataInv_of_empty {t : State} (htr : t.tr = []) (hct : t.ct = []) (hpbuf : t.pbuf = [])
    (hbits : 1 ≤ t.pbufBits ∧ t.pbufBits ≤ Config.pbufBitsMax) : t.DataInv where
  trForm := by simp [htr, Table.wf]
  ctForm := by simp [hct, Table.wf]
  codes := by simp [hct]
  buffer := by simp [hpbuf]
  capacity := hbits

theorem State.DataInv.raise {s : State} (h : s.DataInv) (c : Cause) (info : Byte) : (s.raise c info).DataInv :=
  h.of_frame rfl rfl rfl rfl

theorem State.DataInv.resetBlock {s : State} (h : s.DataInv) : s.resetBlock.DataInv :=
  State.dataInv_of_empty rfl rfl rfl h.capacity

theorem State.DataInv.writeTr {s : State} (h : s.DataInv) (idx : NodeIndex) (e : TrEntry) :
    (s.writeTr idx e).DataInv :=
  { h with trForm := Table.wf_put e idx.isLt h.trForm }

theorem State.DataInv.writeCt {s : State} (h : s.DataInv) (sym : Symbol) {code : Bits}
    (hcode : code.length ≤ Config.maxCode) : (s.writeCt sym code).DataInv :=
  { h with
    ctForm := Table.wf_put code sym.isLt h.ctForm
    codes := fun e he => (Table.mem_put he).elim (fun hnew => hnew ▸ hcode) (h.codes e) }

theorem State.DataInv.clearCt {s : State} (h : s.DataInv) (sym : Symbol) : (s.clearCt sym).DataInv :=
  { h with
    ctForm := Table.wf_erase sym.toNat h.ctForm
    codes := fun e he => h.codes e (List.mem_of_mem_filter he) }

/-- Bits are appended to PBUF only where they fit (R166, R168). -/
theorem State.DataInv.appendBits {s : State} (h : s.DataInv) (bits : Bits) (info : Byte) :
    (s.appendBits bits info).DataInv := by
  unfold State.appendBits
  split
  case isTrue => exact h.raise _ _
  case isFalse hfits =>
    have hlen : (s.pbuf ++ bits).length ≤ s.pbufBits := by rw [List.length_append]; omega
    exact { h with buffer := hlen }

theorem State.DataInv.feed {s : State} (h : s.DataInv) (B : Bits) : (s.feed B).DataInv := by
  obtain ⟨out, c, ⟨e, -⟩ | ⟨bad, -, -, e⟩⟩ := s.feed_cases B <;> rw [e] <;> exact h.of_frame rfl rfl rfl rfl

theorem State.DataInv.endStream {s : State} (h : s.DataInv) : s.endStream.DataInv := by
  obtain ⟨-, -, e⟩ | ⟨-, e⟩ | e := s.endStream_cases <;> rw [e] <;> exact h.of_frame rfl rfl rfl rfl

/-- Every command's own rule keeps the data in range, in every mode. -/
theorem State.DataInv.ownRule {s : State} (h : s.DataInv) (i : Instr) : (ownRule i s).DataInv := by
  cases i with
  | rst => exact h.resetBlock
  | trLeaf idx sym => exact h.writeTr idx _
  | trNode idx left right => exact h.writeTr idx _
  | ctClr sym => exact h.clearCt sym
  | ctNew sym => exact (h.writeCt sym (code := []) (Nat.zero_le _)).of_frame rfl rfl rfl rfl
  | ctBit v =>
    dsimp only [Machine.ownRule]
    split
    case h_1 => exact h.raise _ _
    case h_2 code hcode =>
      split
      case isTrue => exact h.raise _ _
      case isFalse hroom =>
        have hlen : code.length ≤ Config.maxCode := h.codes _ (Table.mem_of_get hcode)
        refine h.writeCt s.ctsel ?_
        rw [List.length_append, List.length_singleton]
        omega
  | pkBegin => exact { h with buffer := Nat.zero_le _ }
  | pkSym sym =>
    dsimp only [Machine.ownRule]
    split
    · exact h.raise _ _
    · exact h.appendBits _ _
  | pkChar ch =>
    dsimp only [Machine.ownRule]
    split
    · exact h.raise _ _
    · exact h.appendBits _ _
  | dkBegin raw =>
    dsimp only [Machine.ownRule]
    split <;> exact h.of_frame rfl rfl rfl rfl
  | dkByte byte =>
    have hbody : State.DataInv { s with phase := .body } := h.of_frame rfl rfl rfl rfl
    rw [ownRule_dkByte]
    split
    · exact hbody.raise _ _
    · exact hbody.feed _
  | dkEnd =>
    dsimp only [Machine.ownRule]
    split
    · exact (h.raise _ _).endStream
    · exact h.endStream
  | _ => exact h.of_frame rfl rfl rfl rfl

theorem State.DataInv.step {s t : State} (hs : s.DataInv) (h : step s = .next t) : t.DataInv :=
  step_keeps (P := State.DataInv) (fun _ _ h => h.of_frame rfl rfl rfl rfl) (fun _ h => h.resetBlock)
    (fun i _ h => after_elim h (fun _ => h.raise _ _) fun _ => h.ownRule i) (fun _ _ h _ => h.raise _ _) hs h

/-- Settles O35: every store keeps a table's form, and PBUF and a code are extended only where there is room;
over runs by induction. -/
theorem dataInvariantKept : Obligations.DataInvariantKept := by
  refine ⟨fun _ _ hs h => hs.step h, fun _ => reachable_induction (P := State.DataInv) ?_ fun _ _ hs h => hs.step h⟩
  exact fun _ _ hlow hhigh => State.dataInv_of_empty rfl rfl rfl ⟨hlow, hhigh⟩

/-! The invariants at reset. -/

/-- Settles O32: at reset no fault is recorded and the block is in IDLE. -/
theorem sessionInvariantAtReset : Obligations.SessionInvariantAtReset :=
  State.sessionInv_of_quiet (.inl rfl) rfl rfl fun _ => rfl

/-- Settles O34: at reset no fault is recorded. -/
theorem faultRecordInvariantAtReset : Obligations.FaultRecordInvariantAtReset :=
  State.recordInv_of_no_fault rfl rfl rfl

/-- Settles O36: at reset the tables and PBUF are empty. -/
theorem dataInvariantAtReset : Obligations.DataInvariantAtReset :=
  fun _ hlow hhigh => State.dataInv_of_empty rfl rfl rfl ⟨hlow, hhigh⟩

end Sys2Proof.Machine
end

section
/-! SUPPORT. What a command and a step leave unchanged: the write column of 10_state.md R39, and what follows
from it of every step (R27 to R29, R45; 20_memory.md R75; 60_exceptions.md R218; 70_reset_and_hazards.md R258). -/

namespace Sys2Proof.Machine

open Sys2Proof.Claims

/-! The write column of R39. -/

/-- Each component of R39's column that a command changes is one its row lists, or is written by a fault entry.
`after_listedWrites` ties it to `exec`. -/
structure ListedWrites (i : Instr) (s t : State) : Prop where
  tr : t.tr ≠ s.tr → i = .rst ∨ (∃ a b, i = .trLeaf a b) ∨ ∃ a b c, i = .trNode a b c
  root : t.root ≠ s.root → i = .rst ∨ ∃ a, i = .setRoot a
  ct : t.ct ≠ s.ct → i = .rst ∨ (∃ a, i = .ctClr a) ∨ (∃ a, i = .ctNew a) ∨ ∃ v, i = .ctBit v
  ctsel : t.ctsel ≠ s.ctsel → i = .rst ∨ ∃ a, i = .ctNew a
  pbuf : t.pbuf ≠ s.pbuf → i = .rst ∨ i = .pkBegin ∨ (∃ a, i = .pkSym a) ∨ ∃ a, i = .pkChar a
  raw : t.raw ≠ s.raw → i = .rst ∨ ∃ v, i = .dkBegin v
  walk : t.phase ≠ s.phase ∨ t.cur ≠ s.cur → i = .rst ∨ (∃ v, i = .dkBegin v) ∨ ∃ b, i = .dkByte b
  session : t.mode ≠ s.mode ∨ t.done ≠ s.done →
    (i = .rst ∨ i = .pkBegin ∨ i = .pkEnd ∨ (∃ v, i = .dkBegin v) ∨ i = .dkEnd) ∨
    ∃ c info, t.mode = (s.raise c info).mode ∧ t.done = false ∧ SameRecord t (s.raise c info)
  record : ¬ SameRecord t s → i = .rst ∨ (∃ c info, SameRecord t (s.raise c info)) ∨
    (i = .dkEnd ∧ SameRecord t ((s.raise .noMark 0#8).raise .midWalk s.cur))
  byteOut : t.byteOut ≠ s.byteOut → i = .pkEnd
  decOut : t.decOut ≠ s.decOut → ∃ b, i = .dkByte b
  rspOut : t.rspOut ≠ s.rspOut → ∃ r, i = .rdReg r
  pbufBits : t.pbufBits = s.pbufBits
  cmdIn : t.cmdIn = s.cmdIn
  system : i = .nop ∨ (∃ r, i = .rdReg r) → t.mode = s.mode ∧ t.done = s.done ∧ SameRecord t s

theorem sameRecord_refl (s : State) : SameRecord s s := ⟨rfl, rfl, rfl⟩

/-- Fault entry looks at no component but the record's when it writes the record. -/
theorem sameRecord_raise {s u : State} (h : SameRecord u s) (c : Cause) (info : Byte) :
    SameRecord (u.raise c info) (s.raise c info) := by
  obtain ⟨herr, hcause, hinfo⟩ := h
  simp only [SameRecord, State.raise_err, State.raise_fcause, State.raise_finfo, herr, hcause, hinfo, and_self]

theorem listedWrites_refl (i : Instr) (s : State) : ListedWrites i s s := by
  constructor <;> simp [SameRecord]

/-- A command that only writes as its row lists may then raise a fault. -/
theorem ListedWrites.raise {i : Instr} {s u : State} (h : ListedWrites i s u) (hrecord : SameRecord u s)
    (hmode : u.mode = s.mode) (hi : ¬ (i = .nop ∨ ∃ r, i = .rdReg r)) (c : Cause) (info : Byte) :
    ListedWrites i s (u.raise c info) :=
  { h with
    session := fun _ => .inr ⟨c, info, by simp only [State.raise_mode, hmode], rfl, sameRecord_raise hrecord c info⟩
    record := fun _ => .inr (.inl ⟨c, info, sameRecord_raise hrecord c info⟩)
    system := fun h => absurd h hi }

theorem listedWrites_raise {i : Instr} (hi : ¬ (i = .nop ∨ ∃ r, i = .rdReg r)) (s : State) (c : Cause)
    (info : Byte) : ListedWrites i s (s.raise c info) :=
  (listedWrites_refl i s).raise (sameRecord_refl s) rfl hi c info

/-- The two commands that write PBUF by appending to it (R166, R168). -/
theorem listedWrites_appendBits {i : Instr} (hi : (∃ a, i = .pkSym a) ∨ ∃ a, i = .pkChar a) (s : State)
    (bits : Bits) (info : Byte) : ListedWrites i s (s.appendBits bits info) := by
  refine State.appendBits_elim (P := ListedWrites i s) (listedWrites_raise ?_ s .overflow info) ?_
  · rintro (rfl | ⟨r, rfl⟩) <;> simp at hi
  · exact { listedWrites_refl i s with pbuf := fun _ => .inr (.inr hi) }

/-- DK_BYTE writes PHASE and CUR, emits items, and may raise a fault (R186). -/
theorem listedWrites_dkByte (byte : Byte) (s : State) : ListedWrites (.dkByte byte) s (ownRule (.dkByte byte) s) := by
  have moved (out : List Byte) (c : NodeIndex) :
      ListedWrites (.dkByte byte) s { s with phase := .body, decOut := s.decOut ++ out, cur := c } := by
    constructor <;> simp [SameRecord]
  have started : ListedWrites (.dkByte byte) s { s with phase := .body } := by
    constructor <;> simp [SameRecord]
  rw [ownRule_dkByte]
  split
  · exact started.raise (sameRecord_refl s) rfl (by simp) .noMark 0#8
  · obtain ⟨out, c, ⟨e, -⟩ | ⟨bad, -, -, e⟩⟩ :=
      State.feed_cases (payloadOf s.phase byte) { s with phase := .body } <;> rw [e]
    · exact moved out c
    · exact (moved out c).raise (sameRecord_refl s) rfl (by simp) .tree bad

/-- What DK_END may write is MODE, DONE and the record, this by one fault entry or by both of its own (R189). -/
theorem listedWrites_dkEnd_of_record {s t : State} {m : Mode} {d : Bool} {e : BitVec 8} {f : BitVec 4} {g : Byte}
    (ht : t = { s with mode := m, done := d, err := e, fcause := f, finfo := g })
    (hrecord : SameRecord t s ∨ (∃ c info, SameRecord t (s.raise c info)) ∨
      SameRecord t ((s.raise .noMark 0#8).raise .midWalk s.cur)) : ListedWrites .dkEnd s t := by
  subst ht
  constructor
  case record => exact fun hne => .inr ((hrecord.resolve_left hne).imp_right fun h => ⟨rfl, h⟩)
  all_goals simp

theorem listedWrites_dkEnd (s : State) : ListedWrites .dkEnd s (ownRule .dkEnd s) := by
  dsimp only [ownRule]
  split
  · obtain ⟨-, -, e⟩ | ⟨-, e⟩ | e := (s.raise .noMark 0#8).endStream_cases <;> rw [e]
    · exact listedWrites_dkEnd_of_record rfl (.inr (.inr (sameRecord_refl _)))
    all_goals exact listedWrites_dkEnd_of_record rfl (.inr (.inl ⟨.noMark, 0#8, rfl, rfl, rfl⟩))
  · obtain ⟨-, -, e⟩ | ⟨-, e⟩ | e := s.endStream_cases <;> rw [e]
    · exact listedWrites_dkEnd_of_record rfl (.inr (.inl ⟨.midWalk, s.cur, sameRecord_refl _⟩))
    all_goals exact listedWrites_dkEnd_of_record rfl (.inl ⟨rfl, rfl, rfl⟩)

/-- Every command's own rule writes only what its row of R39 lists. -/
theorem ownRule_listedWrites (i : Instr) (s : State) : ListedWrites i s (ownRule i s) := by
  cases i with
  | ctBit v =>
    dsimp only [ownRule]
    split
    · exact listedWrites_raise (by simp) s _ _
    · split
      · exact listedWrites_raise (by simp) s _ _
      · constructor <;> simp [SameRecord]
  | pkSym sym =>
    dsimp only [ownRule]
    split
    · exact listedWrites_raise (by simp) s _ _
    · exact listedWrites_appendBits (.inl ⟨sym, rfl⟩) s _ _
  | pkChar ch =>
    dsimp only [ownRule]
    split
    · exact listedWrites_raise (by simp) s _ _
    · exact listedWrites_appendBits (.inr ⟨ch, rfl⟩) s _ _
  | dkBegin raw =>
    dsimp only [ownRule]
    split
    · exact listedWrites_raise (by simp) s _ _
    · constructor <;> simp [SameRecord]
  | dkByte byte => exact listedWrites_dkByte byte s
  | dkEnd => exact listedWrites_dkEnd s
  | _ => constructor <;> simp [ownRule, SameRecord]

/-- Every command writes only what its row of R39 lists: NOP and RD_REG meet no mode check, and the others raise
E_SEQ where they are not admitted. -/
theorem after_listedWrites (i : Instr) (s : State) : ListedWrites i s (after i s) := by
  by_cases hi : i = .nop ∨ ∃ r, i = .rdReg r
  · have hadmit : admittedIn i .fault = true := by rcases hi with rfl | ⟨r, rfl⟩ <;> rfl
    rw [after_of_admitted_in_fault hadmit]
    exact ownRule_listedWrites i s
  · exact after_elim (listedWrites_refl i s) (fun _ => listedWrites_raise hi s _ _) fun _ => ownRule_listedWrites i s

/-- Settles O41: the write column, command by command, under the mode checks. -/
theorem writesOnlyWhatIsListed : Obligations.WritesOnlyWhatIsListed := by
  intro i s t h
  obtain rfl : after i s = t := Host.Outcome.next.inj ((exec_eq_after i s).symm.trans h)
  have w := after_listedWrites i s
  exact ⟨w.tr, w.root, w.ct, w.ctsel, w.pbuf, w.raw, w.walk, w.session, w.record, w.byteOut, w.decOut, w.rspOut,
    w.pbufBits, w.cmdIn, w.system⟩

/-! Every step answers a next state (R258). -/

theorem illegalWord_surroundings (w : Word) (s : State) : (illegalWord w s).toSurroundings = s.toSurroundings :=
  illegalWord_elim (P := fun t => t.toSurroundings = s.toSurroundings) rfl fun _ => rfl

/-- Settles O30: by the inputs a step can take; no command writes the queue or PBUF_BITS. -/
theorem stepAlwaysCompletes : Obligations.StepAlwaysCompletes := by
  intro s
  obtain ⟨hin, e⟩ | ⟨rest, hin, e⟩ | ⟨w, rest, i, hin, -, e⟩ | ⟨w, rest, hin, -, e⟩ := step_cases s <;>
    refine ⟨_, e, ?_⟩ <;> rw [hin]
  · exact ⟨rfl, rfl⟩
  · exact ⟨rfl, rfl⟩
  · have hw := after_listedWrites i { s with cmdIn := rest }
    exact ⟨hw.cmdIn, hw.pbufBits⟩
  · rw [illegalWord_surroundings]
    exact ⟨rfl, rfl⟩

/-- With a legal word in front a step runs its command (R62, R90). -/
theorem step_of_decode {s : State} {w : Word} {rest : List HostInput} {i : Instr} (hin : s.cmdIn = .word w :: rest)
    (hd : decode w = some i) : step s = exec i { s with cmdIn := rest } := by
  rw [exec_eq_after, ← deliverWord_of_decode hd]
  simp only [step, State.takeInput, hin, deliver]

/-- Settles O28: the word in front is taken off, decoded and executed. -/
theorem stepRunsTheCommand : Obligations.StepRunsTheCommand := fun _ _ _ _ => step_of_decode

/-- Settles O29: there is no input to take. -/
theorem stepWaitsForInput : Obligations.StepWaitsForInput := by
  intro s hin
  simp only [step, State.takeInput, hin]

/-! A step that takes no reset. -/

/-- Such a step waits, runs a command that is not RST, or meets an illegal word, which does nothing or raises
E_ILLEGAL. -/
theorem step_elim_of_noReset {P : State → Prop} {s t : State} (hno : NoReset s) (h : step s = .next t) (waits : P s)
    (taken : ∀ rest, P { s with cmdIn := rest })
    (command : ∀ i rest, i ≠ .rst → P (after i { s with cmdIn := rest }))
    (illegal : ∀ w rest, P (State.raise { s with cmdIn := rest } .illegal (topByte w))) : P t := by
  obtain ⟨-, e⟩ | ⟨rest, hin, -⟩ | ⟨w, rest, i, hin, hd, e⟩ | ⟨w, rest, -, -, e⟩ := step_cases s
  · cases e.symm.trans h
    exact waits
  · cases hno _ _ hin
  · have hi : i ≠ .rst := fun hrst => by
      obtain rfl : w = 0x10000000#32 := eq_of_decode_rst (hrst ▸ hd)
      cases hno _ _ hin
    cases e.symm.trans h
    exact command i rest hi
  · cases e.symm.trans h
    exact illegalWord_elim (taken rest) fun _ => illegal w rest

/-- Flags that were set are still set, and a first fault that was recorded is still the one recorded. -/
def RecordSticks (s t : State) : Prop :=
  (∀ k, s.err.getLsbD k = true → t.err.getLsbD k = true) ∧
  (s.fcause ≠ 0#4 → t.fcause = s.fcause ∧ t.finfo = s.finfo)

theorem recordSticks_of_sameRecord {s t : State} (h : SameRecord t s) : RecordSticks s t := by
  obtain ⟨herr, hcause, hinfo⟩ := h
  exact ⟨fun k hk => herr ▸ hk, fun _ => ⟨hcause, hinfo⟩⟩

theorem recordSticks_raise (s : State) (c : Cause) (info : Byte) : RecordSticks s (s.raise c info) :=
  ⟨fun _ hk => or_keeps_bit hk, State.raise_keeps_record c info⟩

theorem RecordSticks.trans {s t u : State} (hst : RecordSticks s t) (htu : RecordSticks t u) : RecordSticks s u := by
  refine ⟨fun k hk => htu.1 k (hst.1 k hk), fun hne => ?_⟩
  obtain ⟨hcause, hinfo⟩ := hst.2 hne
  obtain ⟨hcause', hinfo'⟩ := htu.2 (hcause ▸ hne)
  exact ⟨hcause'.trans hcause, hinfo'.trans hinfo⟩

/-- The record is written by fault entry alone, unless by RST. -/
theorem ListedWrites.recordSticks {i : Instr} {s t : State} (h : ListedWrites i s t) (hi : i ≠ .rst) :
    RecordSticks s t := by
  by_cases hsame : SameRecord t s
  · exact recordSticks_of_sameRecord hsame
  · obtain hrst | ⟨c, info, hraise⟩ | ⟨-, hraise⟩ := h.record hsame
    · exact absurd hrst hi
    · exact (recordSticks_raise s c info).trans (recordSticks_of_sameRecord hraise)
    · have htwo := (recordSticks_raise s .noMark 0#8).trans (recordSticks_raise _ .midWalk s.cur)
      exact htwo.trans (recordSticks_of_sameRecord hraise)

/-- Settles O37: a step that takes no reset leaves the record, or makes fault entries in it. -/
theorem faultRecordSticky : Obligations.FaultRecordSticky := by
  intro s t hno h
  refine step_elim_of_noReset (P := RecordSticks s) hno h ?_ (fun rest => ?_) (fun i rest hi => ?_) fun w rest => ?_
  · exact recordSticks_of_sameRecord (sameRecord_refl s)
  · exact recordSticks_of_sameRecord (sameRecord_refl s)
  · exact (after_listedWrites i { s with cmdIn := rest }).recordSticks hi
  · exact recordSticks_raise { s with cmdIn := rest } .illegal (topByte w)

/-- Settles O42: a flag that is set stays set, and a session that ended well has none. -/
theorem noGoodEndAfterFault : Obligations.NoGoodEndAfterFault := by
  intro s t herr hno h
  have hsticks := (faultRecordSticky s t hno h).1
  have ht : t.err ≠ 0#8 := fun hzero => herr <| BitVec.eq_of_getLsbD_eq fun k _ => by
    simpa [hzero] using hsticks k
  exact ⟨ht, fun hwell => ht hwell.2.2⟩

/-- The tables, ROOT and CTSEL of `t` are those of `s`. -/
def SameTables (s t : State) : Prop := t.tr = s.tr ∧ t.ct = s.ct ∧ t.root = s.root ∧ t.ctsel = s.ctsel

/-- Outside IDLE no command but RST that is admitted writes a table, ROOT or CTSEL (R98). -/
theorem ownRule_sameTables {i : Instr} {s : State} (hm : s.mode ≠ .idle) (hi : i ≠ .rst)
    (ha : admittedIn i s.mode = true) : SameTables s (ownRule i s) := by
  have hw := ownRule_listedWrites i s
  cases i with
  | rst => exact absurd rfl hi
  | trLeaf | trNode | setRoot | ctClr | ctNew | ctBit | pkBegin | dkBegin => exact absurd (eq_of_beq ha) hm
  | _ => exact ⟨by simpa using hw.tr, by simpa using hw.ct, by simpa using hw.root, by simpa using hw.ctsel⟩

/-- Settles O40: outside IDLE the commands that write a table, ROOT or CTSEL are not admitted, so they raise E_SEQ. -/
theorem tablesFixedInSession : Obligations.TablesFixedInSession := by
  intro s t hm hno h
  refine step_elim_of_noReset (P := SameTables s) hno h ?_ (fun rest => ?_) (fun i rest hi => ?_) fun w rest => ?_
  · exact ⟨rfl, rfl, rfl, rfl⟩
  · exact ⟨rfl, rfl, rfl, rfl⟩
  · have hown := ownRule_sameTables (i := i) (s := { s with cmdIn := rest }) hm hi
    exact after_elim (P := SameTables s) ⟨rfl, rfl, rfl, rfl⟩ (fun _ => ⟨rfl, rfl, rfl, rfl⟩) hown
  · exact ⟨rfl, rfl, rfl, rfl⟩

/-! The items of a decode session (R104, R186). -/

/-- The form of an item: in a raw session 0x80 or 0x81, in a symbol session bit 7 clear. -/
def ItemForm (raw : Bool) (d : Byte) : Prop :=
  (raw = true → d = 0x80#8 ∨ d = 0x81#8) ∧ (raw = false → d.getLsbD 7 = false)

/-- At most `n` items of the session's form were appended to DEC_OUT. -/
def EmitsItems (n : Nat) (s t : State) : Prop :=
  ∃ ds : List Byte, t.decOut = s.decOut ++ ds ∧ ds.length ≤ n ∧ ∀ d ∈ ds, ItemForm s.raw d

theorem emitsItems_of_silent (n : Nat) {s t : State} (h : t.decOut = s.decOut) : EmitsItems n s t :=
  ⟨[], by simp [h]⟩

theorem EmitsItems.trans {m n : Nat} {s t u : State} (hst : EmitsItems m s t) (hraw : t.raw = s.raw)
    (htu : EmitsItems n t u) : EmitsItems (n + m) s u := by
  obtain ⟨ds, ht, hlen, hform⟩ := hst
  obtain ⟨es, hu, hlen', hform'⟩ := htu
  refine ⟨ds ++ es, by rw [hu, ht, List.append_assoc], by rw [List.length_append]; omega, fun d hd => ?_⟩
  exact (List.mem_append.1 hd).elim (hform d) (hraw ▸ hform' d)

theorem rawItem_form (v : Bool) : ItemForm true (rawItem v) := by
  unfold ItemForm
  revert v; decide

theorem symbolItem_form (sym : Symbol) : ItemForm false (symbolItem sym) := by
  unfold ItemForm
  revert sym; decide

theorem emitsItems_emitDec {s : State} {d : Byte} (hd : ItemForm s.raw d) : EmitsItems 1 s (s.emitDec d) :=
  ⟨[d], by simp [hd]⟩

/-- A walk step that goes on emits at most one symbol (R188). -/
theorem State.emitsItems_of_walk_ok {s t : State} {v : Bool} (hraw : s.raw = false) (h : s.walk v = .ok t) :
    t.raw = s.raw ∧ EmitsItems 1 s t := by
  unfold State.walk at h
  split at h
  case h_1 =>
    dsimp only at h
    split at h <;> cases h
    case h_2 sym _ => exact ⟨rfl, emitsItems_emitDec (hraw ▸ symbolItem_form sym)⟩
    case h_3 => exact ⟨rfl, emitsItems_of_silent 1 rfl⟩
  case h_2 => cases h

/-- Each payload bit gives at most one item. -/
theorem State.feed_emitsItems (B : Bits) (s : State) : EmitsItems B.length s (s.feed B) := by
  induction B generalizing s with
  | nil => exact emitsItems_of_silent 0 rfl
  | cons v vs ih =>
    cases hraw : s.raw with
    | true =>
      rw [State.feed, if_pos hraw]
      exact (emitsItems_emitDec (hraw ▸ rawItem_form v)).trans rfl (ih _)
    | false =>
      cases hwalk : s.walk v with
      | ok t =>
        obtain ⟨hkeep, hone⟩ := State.emitsItems_of_walk_ok hraw hwalk
        rw [State.feed_of_walk_ok hraw hwalk]
        exact hone.trans hkeep (ih t)
      | error t =>
        rw [State.feed_of_walk_error hraw hwalk]
        obtain ⟨_, _, e, -⟩ | ⟨bad, -, e⟩ := s.walk_cases v <;> cases e.symm.trans hwalk
        exact emitsItems_of_silent _ rfl

theorem payloadOf_length_le (phase : Phase) (y : Byte) : (payloadOf phase y).length ≤ 8 := by
  cases phase <;> simp [payloadOf]

theorem ownRule_dkByte_emitsItems (byte : Byte) (s : State) : EmitsItems 8 s (ownRule (.dkByte byte) s) := by
  rw [ownRule_dkByte]
  split
  · exact emitsItems_of_silent 8 rfl
  · obtain ⟨ds, hds, hlen, hform⟩ :=
      State.feed_emitsItems (payloadOf s.phase byte) { s with phase := .body }
    exact ⟨ds, hds, hlen.trans (payloadOf_length_le s.phase byte), hform⟩

/-- DK_BYTE alone emits items, at most one for each payload bit. -/
theorem after_emitsItems (i : Instr) (s : State) : EmitsItems 8 s (after i s) := by
  by_cases hi : ∃ byte, i = .dkByte byte
  · obtain ⟨byte, rfl⟩ := hi
    exact after_elim (emitsItems_of_silent 8 rfl) (fun _ => emitsItems_of_silent 8 rfl)
      fun _ => ownRule_dkByte_emitsItems byte s
  · exact emitsItems_of_silent 8 (not_not.1 (mt (after_listedWrites i s).decOut hi))

/-- Settles O39: a byte has at most eight payload bits, and each gives at most one item. -/
theorem decodedItemsInRange : Obligations.DecodedItemsInRange := by
  intro s t h
  have hitems : EmitsItems 8 s t := by
    obtain ⟨-, e⟩ | ⟨rest, -, e⟩ | ⟨w, rest, i, -, -, e⟩ | ⟨w, rest, -, -, e⟩ := step_cases s <;>
      cases e.symm.trans h
    · exact emitsItems_of_silent 8 rfl
    · exact emitsItems_of_silent 8 rfl
    · exact after_emitsItems i { s with cmdIn := rest }
    · exact emitsItems_of_silent 8 (congrArg Traces.decOut (illegalWord_toTraces w { s with cmdIn := rest }))
  obtain ⟨ds, hds, hlen, hform⟩ := hitems
  exact ⟨ds, hds, hlen, fun hraw d hd => (hform d hd).1 hraw, fun hraw d hd => (hform d hd).2 hraw⟩

/-! Words of the spec. -/

/-- Settles O27: by evaluating the decoder on each word. -/
theorem tableWordsDecode : Obligations.TableWordsDecode := by
  unfold Obligations.TableWordsDecode
  decide

end Sys2Proof.Machine
end

section
/-! SUPPORT. The statements about a whole encode session (42_pack.md R164 to R169), about `unpack` after `pack`
(43_unpack_decode.md R191), and about the first commands of a run (70_reset_and_hazards.md R242). -/

namespace Sys2Proof.Machine

open Sys2Proof.Claims

/-! `unpack` after `pack` (R191). -/

/-- With a marker in the first byte `unpack` drops what stands before the first one of the whole stream. -/
theorem unpack_of_marked {y : Byte} (hy : y ≠ 0#8) (ys : List Byte) :
    unpack (y :: ys) = (afterMarker (bitsOfBytes (y :: ys)), true) := by
  rw [unpack_cons, bitsOfBytes_cons, bitsOfByte_eq_marker_append hy, List.append_assoc, afterMarker_marker_append,
    decide_eq_true hy]

theorem unpack_pack (B : Bits) : unpack (pack B) = (B, true) := by
  obtain ⟨y, rest, h⟩ := List.exists_cons_of_length_eq_add_one (pack_length B)
  have hy : y ≠ 0#8 := fun hzero => (log2_of_pack_eq_cons h).1 (by rw [hzero]; rfl)
  rw [h, unpack_of_marked hy, ← h, bitsOfBytes_pack, afterMarker_marker_append]

/-- Settles O46: the packed bytes have the marker in the first of them, and `unpack` drops it. -/
theorem unpackAfterPack : Obligations.UnpackAfterPack := unpack_pack

/-! The codes of a text (R164). -/

theorem concatCodes_cons_eq_ok {ct : CodeTable} {sym : Symbol} {rest : List Symbol} {B : Bits} :
    concatCodes ct (sym :: rest) = .ok B ↔
      ∃ code C, ct.code sym = some code ∧ concatCodes ct rest = .ok C ∧ B = code ++ C := by
  rw [concatCodes]
  cases ct.code sym with
  | none => simp
  | some code => cases concatCodes ct rest <;> simp [Except.map, eq_comm]

/-! The commands of an encode session, in its mode. -/

theorem after_pkBegin {s : State} (hm : s.mode = .idle) :
    after .pkBegin s = { s with pbuf := [], done := false, mode := .pack } :=
  after_of_admitted (by simp [hm]) (by simp [hm, admittedIn])

section
variable {s : State} (hm : s.mode = .pack)
include hm

theorem after_of_pack {i : Instr} (ha : admittedIn i .pack = true) : after i s = ownRule i s :=
  after_of_admitted (by simp [hm]) (hm ▸ ha)

theorem after_pkSym_of_missing {sym : Symbol} (hcode : s.readCt sym = none) :
    after (.pkSym sym) s = s.raise .missing (symbolItem sym) := by
  rw [after_of_pack hm rfl]
  simp only [ownRule, hcode]

theorem after_pkSym_of_code {sym : Symbol} {code : Bits} (hcode : s.readCt sym = some code) :
    after (.pkSym sym) s = s.appendBits code (symbolItem sym) := by
  rw [after_of_pack hm rfl]
  simp only [ownRule, hcode]

theorem after_pkChar_of_bit (v : Bool) : after (.pkChar (if v then Config.chOne else Config.chZero)) s =
    s.appendBits [v] (if v then Config.chOne else Config.chZero) := by
  rw [after_of_pack hm rfl]
  cases v <;> rfl

end

theorem State.appendBits_of_fits {s : State} {bits : Bits} (hfits : s.pbuf.length + bits.length ≤ s.pbufBits)
    (info : Byte) : s.appendBits bits info = { s with pbuf := s.pbuf ++ bits } :=
  if_neg (Nat.not_lt.2 hfits)

theorem State.appendBits_of_overflow {s : State} {bits : Bits} (hfull : s.pbuf.length + bits.length > s.pbufBits)
    (info : Byte) : s.appendBits bits info = s.raise .overflow info :=
  if_pos hfull

/-- In FAULT a list of session and table commands does nothing (R99). -/
theorem afterAll_of_fault {s : State} (hs : s.mode = .fault) {is : List Instr}
    (his : ∀ i ∈ is, admittedIn i .fault = false) : afterAll is s = s := by
  induction is with
  | nil => rfl
  | cons i is ih =>
    obtain ⟨hi, his⟩ := List.forall_mem_cons.1 his
    rw [afterAll_cons, after_of_fault_of_not_admitted hs hi, ih his]

/-- Codes that fit are appended one after the other. -/
theorem afterAll_pkSym_of_fits {s : State} (hm : s.mode = .pack) {source : List Symbol} {B : Bits}
    (hcodes : concatCodes s.ct source = .ok B) (hfits : s.pbuf.length + B.length ≤ s.pbufBits) :
    afterAll (source.map .pkSym) s = { s with pbuf := s.pbuf ++ B } := by
  induction source generalizing s B with
  | nil =>
    cases hcodes
    rw [List.append_nil]
    rfl
  | cons sym rest ih =>
    obtain ⟨code, C, hcode, hrest, rfl⟩ := concatCodes_cons_eq_ok.1 hcodes
    rw [List.length_append, ← Nat.add_assoc] at hfits
    rw [List.map_cons, afterAll_cons, after_pkSym_of_code hm hcode, State.appendBits_of_fits (by omega),
      ih (s := { s with pbuf := s.pbuf ++ code }) hm hrest (by rwa [List.length_append]), List.append_assoc]

/-- A fault has stopped the session, and nothing has been emitted. -/
def StoppedSilently (s t : State) : Prop := t.byteOut = s.byteOut ∧ t.mode = .fault ∧ t.err ≠ 0#8

theorem stoppedSilently_raise (s : State) {c : Cause} (info : Byte) (hc : c.stops = true) :
    StoppedSilently s (s.raise c info) :=
  ⟨rfl, s.raise_mode_of_stops info hc, s.raise_err_ne_zero c info⟩

/-- A missing code, or codes that do not fit, stop the session: at the first missing one, or at the first that does
not fit. -/
theorem stoppedSilently_pkSym {s : State} (hm : s.mode = .pack) (hbuffer : s.pbuf.length ≤ s.pbufBits)
    {source : List Symbol} (hbad : ∀ B, concatCodes s.ct source = .ok B → s.pbuf.length + B.length > s.pbufBits) :
    StoppedSilently s (afterAll (source.map .pkSym) s) := by
  have ignored (syms : List Symbol) : ∀ i ∈ syms.map Instr.pkSym, admittedIn i .fault = false := by
    simp [admittedIn]
  induction source generalizing s with
  | nil => exact absurd (hbad [] rfl) (Nat.not_lt.2 hbuffer)
  | cons sym rest ih =>
    rw [List.map_cons, afterAll_cons]
    cases hcode : s.readCt sym with
    | none =>
      rw [after_pkSym_of_missing hm hcode, afterAll_of_fault (s.raise_mode_of_stops _ rfl) (ignored rest)]
      exact stoppedSilently_raise s _ rfl
    | some code =>
      rw [after_pkSym_of_code hm hcode]
      by_cases hfits : s.pbuf.length + code.length ≤ s.pbufBits
      · rw [State.appendBits_of_fits hfits]
        refine ih (s := { s with pbuf := s.pbuf ++ code }) hm (by rwa [List.length_append]) fun C hrest => ?_
        have hlong := hbad (code ++ C) (concatCodes_cons_eq_ok.2 ⟨code, C, hcode, hrest, rfl⟩)
        rw [List.length_append] at hlong
        show (s.pbuf ++ code).length + C.length > s.pbufBits
        rw [List.length_append]
        omega
      · rw [State.appendBits_of_overflow (Nat.not_le.1 hfits),
          afterAll_of_fault (s.raise_mode_of_stops _ rfl) (ignored rest)]
        exact stoppedSilently_raise s _ rfl

/-! Whole encode sessions. -/

/-- A whole session whose commands between PK_BEGIN and PK_END append bits ends well, with those bits packed. -/
theorem afterAll_packSession {s : State} (hm : s.mode = .idle) {is : List Instr} {B : Bits}
    (happend : afterAll is (after .pkBegin s) = { after .pkBegin s with pbuf := B }) :
    afterAll (.pkBegin :: (is ++ [.pkEnd])) s =
      { s with pbuf := B, byteOut := s.byteOut ++ pack B, done := true, mode := .idle } := by
  rw [afterAll_cons, afterAll_concat, happend, after_pkBegin hm, after_of_pack rfl rfl]
  rfl

theorem afterAll_encodeSession_of_fits {s : State} (hm : s.mode = .idle) {source : List Symbol} {B : Bits}
    (hcodes : concatCodes s.ct source = .ok B) (hfits : B.length ≤ s.pbufBits) :
    afterAll (encodeSession source) s =
      { s with pbuf := B, byteOut := s.byteOut ++ pack B, done := true, mode := .idle } := by
  refine afterAll_packSession hm ?_
  rw [after_pkBegin hm]
  exact afterAll_pkSym_of_fits (s := { s with pbuf := [], done := false, mode := .pack }) rfl hcodes (by simpa)

theorem stoppedSilently_encodeSession {s : State} (hm : s.mode = .idle) {source : List Symbol}
    (hbad : ∀ B, concatCodes s.ct source = .ok B → B.length > s.pbufBits) :
    StoppedSilently s (afterAll (encodeSession source) s) := by
  rw [encodeSession, afterAll_cons, afterAll_concat, after_pkBegin hm]
  have hstop := stoppedSilently_pkSym (s := { s with pbuf := [], done := false, mode := .pack }) rfl
    (Nat.zero_le _) (source := source) (by simpa using hbad)
  rwa [after_of_fault_of_not_admitted hstop.2.1 rfl]

/-- Settles O48: codes that are there and fit are packed; otherwise the session stops before PK_END. -/
theorem encodeSessionComputesEncode : Obligations.EncodeSessionComputesEncode := by
  intro s source hm herr
  refine ⟨_, execAll_eq_afterAll _ s, ?_⟩
  cases hcodes : concatCodes s.ct source with
  | error e => exact stoppedSilently_encodeSession hm (by simp [hcodes])
  | ok B =>
    dsimp only
    split
    case isTrue hfits =>
      rw [afterAll_encodeSession_of_fits hm hcodes hfits]
      exact ⟨by rw [encodeText, hcodes]; rfl, rfl, rfl, rfl, rfl, herr⟩
    case isFalse hlong =>
      refine stoppedSilently_encodeSession hm fun C hC => ?_
      obtain rfl : B = C := Except.ok.inj (hcodes.symm.trans hC)
      exact Nat.not_le.1 hlong

/-- Bit characters that fit are appended one after the other. -/
theorem afterAll_pkChar_of_fits {s : State} (hm : s.mode = .pack) {B : Bits}
    (hfits : s.pbuf.length + B.length ≤ s.pbufBits) :
    afterAll (B.map fun v => .pkChar (if v then Config.chOne else Config.chZero)) s =
      { s with pbuf := s.pbuf ++ B } := by
  induction B generalizing s with
  | nil =>
    rw [List.append_nil]
    rfl
  | cons v vs ih =>
    rw [List.length_cons] at hfits
    rw [List.map_cons, afterAll_cons, after_pkChar_of_bit hm,
      State.appendBits_of_fits (by rw [List.length_singleton]; omega),
      ih (s := { s with pbuf := s.pbuf ++ [v] }) hm
        (by simp only [List.length_append, List.length_singleton]; omega),
      List.append_assoc, List.singleton_append]

theorem afterAll_charSession_of_fits {s : State} (hm : s.mode = .idle) {B : Bits} (hfits : B.length ≤ s.pbufBits) :
    afterAll (charSession B) s =
      { s with pbuf := B, byteOut := s.byteOut ++ pack B, done := true, mode := .idle } := by
  refine afterAll_packSession hm ?_
  rw [after_pkBegin hm]
  exact afterAll_pkChar_of_fits (s := { s with pbuf := [], done := false, mode := .pack }) rfl (by simpa)

/-- Settles O51: the raw session unpacks what the session of bit characters packed. -/
theorem rawRoundTripThroughBlock : Obligations.RawRoundTripThroughBlock := by
  intro s B hm herr hfits
  have hpacked := afterAll_charSession_of_fits hm hfits
  obtain ⟨u, hu, hout, hend, -⟩ := rawSessionComputesUnpack (afterAll (charSession B) s) (pack B)
    (by rw [hpacked]) (by rw [hpacked]; exact herr)
  rw [unpack_pack] at hout hend
  refine ⟨_, u, pack B, execAll_eq_afterAll _ s, ?_, ?_, ?_, hu, ?_, hend⟩
  · rw [hpacked]
  · rw [hpacked]
  · rw [hpacked]
    exact ⟨rfl, rfl, herr⟩
  · rw [hout, hpacked]

/-! The first commands of a run (R242). -/

/-- Settles O60: with every table entry empty and no fault recorded, each command takes the one branch its rule
then has. -/
theorem firstCommandsAfterReset : Obligations.FirstCommandsAfterReset := by
  intro s hs
  have runs {i : Instr} (ha : admittedIn i .idle = true) : exec i s = .next (ownRule i s) := by
    rw [exec_eq_after, after_of_admitted (by simp [hs.mode]) (hs.mode ▸ ha)]
  have raised {c : Cause} (info : Byte) : (s.raise c info).err = c.errBit := by
    rw [State.raise_err, hs.err, BitVec.zero_or]
  refine ⟨⟨_, runs rfl, ?_⟩, fun v => ⟨_, runs rfl, ?_⟩, fun sym => ⟨_, execAll_eq_afterAll _ s, ?_⟩,
    ⟨_, runs rfl, rfl, hs.err⟩⟩
  · have hrule : ownRule (.dkBegin false) s = s.raise .tree s.root := if_pos ⟨rfl, by rw [hs.tr]; rfl⟩
    rw [hrule]
    exact ⟨raised s.root, (if_pos hs.fcause).trans hs.root, rfl⟩
  · have hrule : ownRule (.ctBit v) s = s.raise .seq (commandByte (.ctBit v)) := by simp only [ownRule, hs.ct]
    rw [hrule]
    exact ⟨raised _, rfl⟩
  · have hlast : afterAll [.pkBegin, .pkSym sym] s =
        State.raise { s with pbuf := [], done := false, mode := .pack } .missing (symbolItem sym) := by
      rw [afterAll_cons, after_pkBegin hs.mode]
      exact after_pkSym_of_missing (s := { s with pbuf := [], done := false, mode := .pack }) rfl (hs.ct sym)
    rw [hlast]
    exact ⟨raised (symbolItem sym), rfl⟩

end Sys2Proof.Machine
end

section
/-! SUPPORT. The statement about a whole symbol session (43_unpack_decode.md R184 to R189, R243): the walk over TR,
by indices, against the walk over the tree that TR holds (70_reset_and_hazards.md R245). -/

namespace Sys2Proof.Machine

/-! What TR holds. -/

/-- Only TR decides what TR holds. -/
theorem State.holds_of_tr {s t : State} {k : NodeIndex} {T : TreeNode} (hs : s.holds k T) (h : t.tr = s.tr) :
    t.holds k T := by
  have hread (i : NodeIndex) : t.readTr i = s.readTr i := by rw [State.readTr, State.readTr, h]
  induction T generalizing k with
  | leaf sym p => exact (hread k).trans hs
  | node p l r ihl ihr =>
    obtain ⟨i, j, hk, hl, hr⟩ := hs
    exact ⟨i, j, (hread k).trans hk, ihl hl, ihr hr⟩

/-- Two trees held at one index have the same shape, so the same number of internal nodes. -/
theorem State.holds_internalCount {s : State} {k : NodeIndex} {T U : TreeNode} (hT : s.holds k T)
    (hU : s.holds k U) : T.internalCount = U.internalCount := by
  induction T generalizing k U with
  | leaf sym p =>
    cases U with
    | leaf => rfl
    | node =>
      obtain ⟨i, j, hk, -⟩ := hU
      cases hT.symm.trans hk
  | node p l r ihl ihr =>
    obtain ⟨i, j, hk, hl, hr⟩ := hT
    cases U with
    | leaf => cases hk.symm.trans hU
    | node =>
      obtain ⟨i', j', hk', hl', hr'⟩ := hU
      cases hk.symm.trans hk'
      simp only [TreeNode.internalCount, ihl hl hl', ihr hr hr']

/-! The tree walk of R184, by the child that the bit selects. -/

section
variable {root l r : TreeNode} {p : Rat} {v : Bool}

theorem walkTree_cons_of_leaf {sym : Symbol} {q : Rat} (h : (if v then r else l) = .leaf sym q) (vs : Bits) :
    walkTree root (.node p l r) (v :: vs) = (sym :: (walkTree root root vs).1, (walkTree root root vs).2) := by
  rw [walkTree, h]

theorem walkTree_cons_of_node {q : Rat} {l' r' : TreeNode} (h : (if v then r else l) = .node q l' r') (vs : Bits) :
    walkTree root (.node p l r) (v :: vs) = walkTree root (.node q l' r') vs := by
  rw [walkTree, h]

end

/-- The walk of two bit-strings one after the other. -/
theorem walkTree_append (root pos : TreeNode) (A B : Bits) :
    walkTree root pos (A ++ B) =
      ((walkTree root pos A).1 ++ (walkTree root (walkTree root pos A).2 B).1,
        (walkTree root (walkTree root pos A).2 B).2) := by
  induction A generalizing pos with
  | nil => simp [walkTree]
  | cons v vs ih =>
    cases pos with
    | leaf sym p => cases B <;> simp [walkTree]
    | node p l r =>
      cases h : (if v then r else l) with
      | leaf sym q =>
        rw [List.cons_append, walkTree_cons_of_leaf h, walkTree_cons_of_leaf h, ih, List.cons_append]
      | node q l' r' => rw [List.cons_append, walkTree_cons_of_node h, walkTree_cons_of_node h, ih]

/-! Where the walk stands. -/

/-- A symbol session stands on `pos` in the tree `root`: both are held, and only at the root itself is CUR = ROOT,
every other subtree having fewer internal nodes. -/
structure State.StandsOn (s : State) (root pos : TreeNode) : Prop where
  symbols : s.raw = false
  heldRoot : s.holds s.root root
  heldPos : s.holds s.cur pos
  nodeRoot : root.isNode = true
  nodePos : pos.isNode = true
  place : s.cur = s.root ∧ pos = root ∨ pos.internalCount < root.internalCount

theorem State.StandsOn.of_frame {s t : State} {root pos : TreeNode} (h : s.StandsOn root pos) (htr : t.tr = s.tr)
    (hraw : t.raw = s.raw) (hroot : t.root = s.root) (hcur : t.cur = s.cur) : t.StandsOn root pos where
  symbols := hraw.trans h.symbols
  heldRoot := hroot ▸ State.holds_of_tr h.heldRoot htr
  heldPos := hcur ▸ State.holds_of_tr h.heldPos htr
  nodeRoot := h.nodeRoot
  nodePos := h.nodePos
  place := by rw [hcur, hroot]; exact h.place

/-- The index says CUR = ROOT exactly where the tree says the walk is at the root (R189 against R184). -/
theorem State.StandsOn.cur_eq_root_iff {s : State} {root pos : TreeNode} (h : s.StandsOn root pos) :
    s.cur = s.root ↔ pos = root := by
  rcases h.place with ⟨hcur, hpos⟩ | hlt
  · exact iff_of_true hcur hpos
  · refine iff_of_false (fun hcur => ?_) fun hpos => ?_
    · exact hlt.ne (State.holds_internalCount h.heldPos (hcur ▸ h.heldRoot))
    · exact hlt.ne (by rw [hpos])

/-- At the root a walk starts, and starts again after each symbol. -/
theorem State.standsOn_root {s : State} {root : TreeNode} (hraw : s.raw = false) (hheld : s.holds s.root root)
    (hnode : root.isNode = true) (hcur : s.cur = s.root) : s.StandsOn root root where
  symbols := hraw
  heldRoot := hheld
  heldPos := hcur ▸ hheld
  nodeRoot := hnode
  nodePos := hnode
  place := .inl ⟨hcur, rfl⟩

/-! The payload bits of a byte (R186, R188). -/

/-- From `s`, standing on `pos`, the payload bits `B` lead to `t`: the symbols of the tree walk are emitted, and the
block stands where that walk does. -/
def State.Walks (root pos : TreeNode) (B : Bits) (s t : State) : Prop :=
  t = { s with decOut := s.decOut ++ (walkTree root pos B).1.map (fun sym => sym.setWidth 8), cur := t.cur } ∧
  t.StandsOn root (walkTree root pos B).2

theorem State.walks_nil {s : State} {root pos : TreeNode} (h : s.StandsOn root pos) :
    State.Walks root pos [] s s := by
  simpa [State.Walks, walkTree] using h

/-- Standing on a node, a symbol session walks as the tree walk does. -/
theorem State.StandsOn.feed {s : State} {root pos : TreeNode} (h : s.StandsOn root pos) (B : Bits) :
    State.Walks root pos B s (s.feed B) := by
  induction B generalizing s pos with
  | nil => exact State.walks_nil h
  | cons v vs ih =>
    obtain ⟨p, l, r, rfl⟩ : ∃ p l r, pos = .node p l r := by
      cases pos with
      | leaf => cases h.nodePos
      | node p l r => exact ⟨p, l, r, rfl⟩
    obtain ⟨i, j, hnode, hl, hr⟩ := h.heldPos
    have hchild : s.holds (if v then j else i) (if v then r else l) := by cases v <;> assumption
    have hsmaller : (if v then r else l).internalCount < (TreeNode.node p l r).internalCount := by
      cases v <;> simp only [TreeNode.internalCount, Bool.false_eq_true, if_true, if_false] <;> omega
    have hsmall : (if v then r else l).internalCount < root.internalCount :=
      h.place.elim (fun hroot => hroot.2 ▸ hsmaller) hsmaller.trans
    cases hsub : (if v then r else l) with
    | leaf sym q =>
      rw [hsub] at hchild
      obtain ⟨e, hstands⟩ := ih (s := { s with decOut := s.decOut ++ [sym.setWidth 8], cur := s.root })
        (State.standsOn_root h.symbols (State.holds_of_tr h.heldRoot rfl) h.nodeRoot rfl)
      rw [State.feed_of_walk_ok h.symbols (State.walk_of_leaf hnode hchild), State.Walks, walkTree_cons_of_leaf hsub]
      refine ⟨e.trans ?_, hstands⟩
      simp only [List.map_cons, List.append_assoc, List.singleton_append]
    | node q l' r' =>
      rw [hsub] at hchild hsmall
      have ⟨_, _, hentry, _⟩ := hchild
      have hmoved : State.StandsOn { s with cur := if v then j else i } root (.node q l' r') := {
        symbols := h.symbols
        heldRoot := State.holds_of_tr h.heldRoot rfl
        heldPos := State.holds_of_tr hchild rfl
        nodeRoot := h.nodeRoot
        nodePos := rfl
        place := .inr hsmall }
      rw [State.feed_of_walk_ok h.symbols (State.walk_of_internal hnode hentry), State.Walks,
        walkTree_cons_of_node hsub]
      exact ih hmoved

/-- Payload bits that come one after the other are walked one after the other. -/
theorem State.Walks.trans {root pos : TreeNode} {A B : Bits} {s t u : State} (hst : State.Walks root pos A s t)
    (htu : State.Walks root (walkTree root pos A).2 B t u) : State.Walks root pos (A ++ B) s u := by
  obtain ⟨et, -⟩ := hst
  obtain ⟨eu, hstands⟩ := htu
  rw [State.Walks, walkTree_append]
  refine ⟨eu.trans ?_, hstands⟩
  rw [et, List.map_append, List.append_assoc]

/-! The bytes of a session, and its end (R186, R189). -/

/-- In DEC a command that is admitted there runs its own rule (R98). -/
theorem after_of_dec {s : State} (hm : s.mode = .dec) {i : Instr} (ha : admittedIn i .dec = true) :
    after i s = ownRule i s :=
  after_of_admitted (by simp [hm]) (hm ▸ ha)

/-- A walk leaves MODE, PHASE and the record as they are. -/
theorem State.Walks.frame {root pos : TreeNode} {B : Bits} {s t : State} (h : State.Walks root pos B s t) :
    t.mode = s.mode ∧ t.phase = s.phase ∧ t.err = s.err := by
  rw [h.1]
  exact ⟨rfl, rfl, rfl⟩

/-- The later bytes of a session: eight payload bits each. -/
theorem State.StandsOn.afterAll_dkByte_body {s : State} {root pos : TreeNode} (h : s.StandsOn root pos)
    (hm : s.mode = .dec) (hbody : s.phase = .body) (ys : List Byte) :
    State.Walks root pos (bitsOfBytes ys) s (afterAll (ys.map .dkByte) s) := by
  induction ys generalizing s pos with
  | nil => exact State.walks_nil h
  | cons y ys ih =>
    have hbyte : after (.dkByte y) s = s.feed (bitsOfByte y) := by
      rw [after_of_dec hm rfl]
      simp only [ownRule, hbody]
    have hfirst := h.feed (bitsOfByte y)
    obtain ⟨hmode, hphase, -⟩ := hfirst.frame
    rw [List.map_cons, afterAll_cons, hbyte, bitsOfBytes_cons]
    exact hfirst.trans (ih hfirst.2 (hmode.trans hm) (hphase.trans hbody))

theorem State.noMarkUnless_mode (s : State) (found : Bool) : (s.noMarkUnless found).mode = s.mode := by
  cases found <;> rfl

theorem State.StandsOn.noMarkUnless {s : State} {root pos : TreeNode} (h : s.StandsOn root pos) (found : Bool) :
    (s.noMarkUnless found).StandsOn root pos := by
  cases found
  · exact h.of_frame rfl rfl rfl rfl
  · exact h

/-- The first byte of a symbol session: E_NOMARK for a byte without a marker, and the payload below the marker. -/
theorem State.StandsOn.after_dkByte_head {s : State} {root pos : TreeNode} (h : s.StandsOn root pos)
    (hm : s.mode = .dec) (hhead : s.phase = .head) (y : Byte) :
    State.Walks root pos (headPayload y) (State.noMarkUnless { s with phase := .body } (decide (y ≠ 0#8)))
      (after (.dkByte y) s) := by
  have hbody : State.StandsOn { s with phase := .body } root pos := h.of_frame rfl rfl rfl rfl
  rw [after_of_dec hm rfl]
  simp only [ownRule, hhead]
  by_cases hy : y = 0#8
  · rw [if_pos hy, hy]
    exact State.walks_nil (hbody.noMarkUnless false)
  · rw [if_neg hy, decide_eq_true hy]
    exact hbody.feed (headPayload y)

/-- All bytes of a symbol session, then DK_END: E_NOMARK unless `unpack` finds a marker, a walk of the bits that
`unpack` gives, and the end-of-stream checks. -/
theorem State.StandsOn.afterAll_bytes {s : State} {root pos : TreeNode} (h : s.StandsOn root pos)
    (hm : s.mode = .dec) (hhead : s.phase = .head) (bytes : List Byte) :
    ∃ p t, State.Walks root pos (unpack bytes).1 (State.noMarkUnless { s with phase := p } (unpack bytes).2) t ∧
      afterAll (bytes.map .dkByte ++ [.dkEnd]) s = t.endStream := by
  rw [afterAll_concat]
  cases bytes with
  | nil =>
    have e : { s with phase := .head } = s := by rw [← hhead]
    refine ⟨.head, s.raise .noMark 0#8, ?_, (after_of_dec (i := .dkEnd) hm rfl).trans ?_⟩
    · rw [e]
      exact State.walks_nil (h.noMarkUnless false)
    · exact congrArg State.endStream (if_pos hhead)
  | cons y ys =>
    have hfirst := h.after_dkByte_head hm hhead y
    obtain ⟨hmode, hphase, -⟩ := hfirst.frame
    rw [State.noMarkUnless_mode] at hmode
    rw [State.noMarkUnless_phase] at hphase
    have hrest := hfirst.2.afterAll_dkByte_body (hmode.trans hm) hphase ys
    obtain ⟨hmode', hphase', -⟩ := hrest.frame
    refine ⟨.body, afterAll (ys.map .dkByte) (after (.dkByte y) s), ?_,
      (after_of_dec (i := .dkEnd) (hmode'.trans (hmode.trans hm)) rfl).trans ?_⟩
    · rw [unpack_cons]
      exact hfirst.trans hrest
    · refine congrArg State.endStream (if_neg fun hh => ?_)
      exact nomatch (hphase'.trans hphase).symm.trans hh

theorem decodeBytes_eq (bytes : List Byte) (root : TreeNode) : decodeBytes bytes root =
    if (walkTree root root (unpack bytes).1).2 ≠ root then .error .endedMidDescent
    else if (unpack bytes).2 = false then .error .noMarker
    else .ok (walkTree root root (unpack bytes).1).1 := rfl

/-- The end of a symbol session, by where the walk stands and whether a marker was found (R189). -/
theorem State.StandsOn.endStream {s : State} {root pos : TreeNode} (h : s.StandsOn root pos) :
    s.endStream = if pos ≠ root then s.raise .midWalk s.cur
      else if s.err ≠ 0#8 then { s with mode := .fault } else { s with mode := .idle, done := true } := by
  have hwalk : s.raw = false ∧ s.cur ≠ s.root ↔ pos ≠ root := by simp [h.symbols, h.cur_eq_root_iff]
  simp only [State.endStream, hwalk]

theorem State.noMarkUnless_err (s : State) (found : Bool) :
    (s.noMarkUnless found).err = if found then s.err else s.err ||| Cause.noMark.errBit := by
  cases found <;> rfl

/-- DK_BEGIN starts a symbol session at a root that is a node of a tree TR holds (R185). -/
theorem after_dkBegin_of_holds {s : State} {root : TreeNode} (hm : s.mode = .idle) (hheld : s.holds s.root root)
    (hnode : root.isNode = true) : after (.dkBegin false) s =
      { s with raw := false, phase := .head, cur := s.root, done := false, mode := .dec } := by
  have hinternal : isInternal (s.readTr s.root) = true := by
    cases root with
    | leaf => cases hnode
    | node =>
      obtain ⟨i, j, hroot, -⟩ := hheld
      exact isInternal_iff.2 ⟨i, j, hroot⟩
  rw [after_of_admitted (by simp [hm]) (by simp [hm, admittedIn])]
  exact if_neg (by simp [hinternal])

/-- Settles O50: DK_BEGIN puts the walk on the root, the bytes walk the tree, and DK_END finds CUR = ROOT exactly
where the tree walk is back at the root. -/
theorem symbolSessionComputesDecode : Obligations.SymbolSessionComputesDecode := by
  intro s bytes root hm herr hnode hheld
  have hstart : State.StandsOn
      { s with raw := false, phase := .head, cur := s.root, done := false, mode := .dec } root root :=
    State.standsOn_root rfl (State.holds_of_tr hheld rfl) hnode rfl
  obtain ⟨p, t, hwalk, hend⟩ := hstart.afterAll_bytes rfl rfl bytes
  refine ⟨_, execAll_eq_afterAll _ s, ?_⟩
  rw [symbolSession, afterAll_cons, after_dkBegin_of_holds hm hheld hnode, hend, decodeBytes_eq]
  have hout : t.endStream.decOut =
      s.decOut ++ (walkTree root root (unpack bytes).1).1.map (fun sym => sym.setWidth 8) := by
    rw [State.endStream_toTraces, hwalk.1]
    cases (unpack bytes).2 <;> rfl
  have hterr : t.err = if (unpack bytes).2 then 0#8 else 0x04#8 := by
    rw [hwalk.frame.2.2, State.noMarkUnless_err]
    simp only [herr]
    rfl
  refine ⟨hout, ?_⟩
  rw [hwalk.2.endStream] at hout ⊢
  by_cases hpos : (walkTree root root (unpack bytes).1).2 ≠ root
  · rw [if_pos hpos, if_pos hpos]
    exact ⟨rfl, by rw [State.raise_err_getLsbD _ _ _ (by decide)]; exact Bool.or_true _⟩
  · rw [if_neg hpos] at hout
    rw [if_neg hpos, if_neg hpos]
    cases hfound : (unpack bytes).2 with
    | false =>
      replace hterr : t.err = 0x04#8 := by rw [hterr, hfound]; rfl
      rw [if_pos rfl, if_pos (by rw [hterr]; decide)]
      exact ⟨rfl, hterr⟩
    | true =>
      replace hterr : t.err = 0#8 := by rw [hterr, hfound]; rfl
      rw [if_neg (not_not.2 hterr)] at hout
      rw [if_neg nofun, if_neg (not_not.2 hterr)]
      exact ⟨hout, rfl, rfl, hterr⟩

end Sys2Proof.Machine
end

section
/-! SUPPORT. The statements about the codes of a tree (40_host_construction.md R136, R140) and about decoding what
was encoded with them (70_reset_and_hazards.md R246). -/

namespace Sys2Proof.Machine

/-! Paths through a tree: 0 to the left, 1 to the right (R136). -/

/-- The symbol at the leaf a path leads to; none where the path does not end on a leaf. `code_of_path` ties it to
`codes`. -/
def TreeNode.follow : TreeNode → Bits → Option Symbol
  | .leaf sym _, [] => some sym
  | .leaf _ _, _ :: _ => none
  | .node _ _ _, [] => none
  | .node _ l r, v :: vs => (if v then r else l).follow vs

theorem TreeNode.leaves_length_pos (T : TreeNode) : 0 < T.leaves.length := by
  induction T with
  | leaf sym p => exact Nat.one_pos
  | node p l r ihl ihr =>
    rw [TreeNode.leaves, List.length_append]
    omega

/-- A path passes at most as many nodes as there are leaves beside the one it ends on. -/
theorem TreeNode.length_lt_of_follow {T : TreeNode} {path : Bits} {sym : Symbol} (h : T.follow path = some sym) :
    path.length < T.leaves.length := by
  induction T generalizing path with
  | leaf s p =>
    cases path with
    | nil => exact Nat.one_pos
    | cons v vs => cases h
  | node p l r ihl ihr =>
    cases path with
    | nil => cases h
    | cons v vs =>
      have hl := l.leaves_length_pos
      have hr := r.leaves_length_pos
      rw [TreeNode.leaves, List.length_append, List.length_cons]
      cases v with
      | false => have := ihl h; omega
      | true => have := ihr h; omega

/-- No path to a leaf goes on to another. -/
theorem TreeNode.eq_nil_of_follow_append {T : TreeNode} {path rest : Bits} {a b : Symbol}
    (ha : T.follow path = some a) (hb : T.follow (path ++ rest) = some b) : rest = [] := by
  induction T generalizing path with
  | leaf s p =>
    cases path with
    | nil => cases rest with
      | nil => rfl
      | cons v vs => cases hb
    | cons v vs => cases ha
  | node p l r ihl ihr =>
    cases path with
    | nil => cases ha
    | cons v vs => cases v with
      | false => exact ihl ha hb
      | true => exact ihr ha hb

/-! The codes of a tree (R136). -/

/-- The code table generator leaves the entries of symbols that are not at a leaf. -/
theorem TreeNode.code_gen_of_not_mem {T : TreeNode} {sym : Symbol} (h : sym ∉ T.leaves) (acc : Bits)
    (ct : CodeTable) : (T.gen acc ct).code sym = ct.code sym := by
  induction T generalizing acc ct with
  | leaf s p =>
    have hne : sym.toNat ≠ s.toNat := fun e => h (List.mem_singleton.2 (BitVec.eq_of_toNat_eq e))
    exact Table.get_put_other ct acc hne
  | node p l r ihl ihr =>
    rw [TreeNode.leaves, List.mem_append, not_or] at h
    rw [TreeNode.gen, ihr h.2, ihl h.1]

/-- With distinct symbols at the leaves the generator gives each the path to it. -/
theorem TreeNode.code_gen_of_mem {T : TreeNode} {sym : Symbol} (hd : T.leaves.Nodup) (h : sym ∈ T.leaves)
    (acc : Bits) (ct : CodeTable) :
    ∃ path, T.follow path = some sym ∧ (T.gen acc ct).code sym = some (acc ++ path) := by
  induction T generalizing acc ct with
  | leaf s p =>
    obtain rfl : sym = s := List.mem_singleton.1 h
    exact ⟨[], rfl, by rw [List.append_nil]; exact Table.get_put_same ct sym.toNat acc⟩
  | node p l r ihl ihr =>
    rw [TreeNode.leaves] at hd h
    obtain ⟨hdl, hdr, hdisjoint⟩ := List.nodup_append'.1 hd
    rw [TreeNode.gen]
    rcases List.mem_append.1 h with hl | hr
    · obtain ⟨path, hpath, hcode⟩ := ihl hdl hl (acc ++ [false]) ct
      refine ⟨false :: path, hpath, ?_⟩
      rw [TreeNode.code_gen_of_not_mem (hdisjoint hl), hcode, List.append_assoc, List.singleton_append]
    · obtain ⟨path, hpath, hcode⟩ := ihr hdr hr (acc ++ [true]) (l.gen (acc ++ [false]) ct)
      exact ⟨true :: path, hpath, by rw [hcode, List.append_assoc, List.singleton_append]⟩

section
variable {root : TreeNode} (hd : root.leaves.Nodup)
include hd

theorem TreeNode.code_of_mem {sym : Symbol} (h : sym ∈ root.leaves) :
    ∃ path, root.follow path = some sym ∧ root.codes.code sym = some path :=
  TreeNode.code_gen_of_mem hd h [] []

/-- Exactly the symbols at the leaves have a code. -/
theorem TreeNode.code_isSome_iff {sym : Symbol} : (root.codes.code sym).isSome = true ↔ sym ∈ root.leaves := by
  refine ⟨fun h => ?_, fun h => ?_⟩
  · by_contra hnot
    rw [TreeNode.codes, TreeNode.code_gen_of_not_mem hnot] at h
    cases h
  · obtain ⟨path, -, hcode⟩ := TreeNode.code_of_mem hd h
    rw [hcode]
    rfl

/-- A code is the path to its symbol's leaf. -/
theorem TreeNode.follow_of_code {sym : Symbol} {code : Bits} (h : root.codes.code sym = some code) :
    root.follow code = some sym := by
  have hmem : sym ∈ root.leaves := (TreeNode.code_isSome_iff hd).1 (by rw [h]; rfl)
  obtain ⟨path, hpath, hcode⟩ := TreeNode.code_of_mem hd hmem
  rwa [Option.some.inj (h.symm.trans hcode)]

/-- There are 128 symbols, so distinct ones are at most 128 leaves. -/
theorem TreeNode.leaves_length_le : root.leaves.length ≤ 128 :=
  (hd.subperm fun sym _ => mem_alphabet sym).length_le

/-- Each code has at most 127 bits, and under an internal root at least one (R140 e). -/
theorem TreeNode.code_length {sym : Symbol} {code : Bits} (hnode : root.isNode = true)
    (h : root.codes.code sym = some code) : 1 ≤ code.length ∧ code.length ≤ 127 := by
  have hpath := TreeNode.follow_of_code hd h
  have hlt := TreeNode.length_lt_of_follow hpath
  have hle := TreeNode.leaves_length_le hd
  refine ⟨Nat.one_le_iff_ne_zero.2 fun hzero => ?_, by omega⟩
  obtain rfl : code = [] := List.length_eq_zero_iff.1 hzero
  cases root with
  | leaf => cases hnode
  | node => cases hpath

/-- No code goes on to another symbol's (R140 c). -/
theorem TreeNode.not_isPrefix_of_code {a b : Symbol} {ca cb : Bits} (ha : root.codes.code a = some ca)
    (hb : root.codes.code b = some cb) (hab : a ≠ b) : ¬ ca <+: cb := by
  rintro ⟨rest, rfl⟩
  have hpa := TreeNode.follow_of_code hd ha
  have hpb := TreeNode.follow_of_code hd hb
  obtain rfl : rest = [] := TreeNode.eq_nil_of_follow_append hpa hpb
  rw [List.append_nil] at hpb
  exact hab (Option.some.inj (hpa.symm.trans hpb))

end

/-- Settles O55: the codes are the paths to the leaves. -/
theorem codesPrefixFree : Obligations.CodesPrefixFree := fun _ hnode hd =>
  ⟨fun _ => TreeNode.code_isSome_iff hd, fun _ _ => TreeNode.code_length hd hnode,
    fun _ _ _ _ => TreeNode.not_isPrefix_of_code hd⟩

/-! Decoding what was encoded (R246). -/

/-- From a node the path to a leaf is walked to its symbol, and the walk is then back at the root. -/
theorem walkTree_follow_append {root pos : TreeNode} (hnode : pos.isNode = true) {path : Bits} {sym : Symbol}
    (h : pos.follow path = some sym) (rest : Bits) :
    walkTree root pos (path ++ rest) = (sym :: (walkTree root root rest).1, (walkTree root root rest).2) := by
  induction path generalizing pos with
  | nil =>
    cases pos with
    | leaf => cases hnode
    | node => cases h
  | cons v vs ih =>
    cases pos with
    | leaf => cases hnode
    | node p l r =>
      rw [List.cons_append]
      rw [TreeNode.follow] at h
      cases hsub : (if v then r else l) with
      | leaf s q =>
        rw [hsub] at h
        cases vs with
        | nil =>
          obtain rfl : s = sym := Option.some.inj h
          exact walkTree_cons_of_leaf hsub rest
        | cons => cases h
      | node q l' r' =>
        rw [hsub] at h
        rw [walkTree_cons_of_node hsub]
        exact ih rfl h

section
variable {root : TreeNode} (hnode : root.isNode = true) (hd : root.leaves.Nodup)
include hnode hd

/-- A text over the leaves has codes, and the walk of the codes gives the text and ends at the root. -/
theorem exists_concatCodes_walkTree {source : List Symbol} (hsource : ∀ sym ∈ source, sym ∈ root.leaves) :
    ∃ B, concatCodes root.codes source = .ok B ∧ walkTree root root B = (source, root) := by
  induction source with
  | nil => exact ⟨[], rfl, by rw [walkTree]⟩
  | cons sym rest ih =>
    obtain ⟨hsym, hrest⟩ := List.forall_mem_cons.1 hsource
    obtain ⟨C, hC, hwalk⟩ := ih hrest
    obtain ⟨code, hpath, hcode⟩ := TreeNode.code_of_mem hd hsym
    refine ⟨code ++ C, concatCodes_cons_eq_ok.2 ⟨code, C, hcode, hC, rfl⟩, ?_⟩
    rw [walkTree_follow_append hnode hpath, hwalk]

theorem decodeBytes_of_encodeText {source : List Symbol} (hsource : ∀ sym ∈ source, sym ∈ root.leaves) :
    ∃ bytes, encodeText source root.codes = .ok bytes ∧ decodeBytes bytes root = .ok source := by
  obtain ⟨B, hB, hwalk⟩ := exists_concatCodes_walkTree hnode hd hsource
  refine ⟨pack B, by rw [encodeText, hB]; rfl, ?_⟩
  rw [decodeBytes_eq, unpack_pack, hwalk, if_neg (not_not.2 rfl), if_neg nofun]

end

/-- Settles O56: `unpack` undoes `pack`, and the walk undoes the codes one by one. -/
theorem decodeAfterEncode : Obligations.DecodeAfterEncode := fun _ _ hnode hd hsource =>
  decodeBytes_of_encodeText hnode hd hsource

end Sys2Proof.Machine
end

section
/-! SUPPORT. The statements about the frequency list (40_host_construction.md R126, R127), the tree builder (R132 to
R135), the properties of what a source gives (R140), and a source's round trip (43_unpack_decode.md R191). -/

namespace Sys2Proof.Machine

/-! The entries are sorted, and the insertion is stable (R127). -/

/-- Ascending by probability. -/
abbrev Ascending (L : List SymbolFrequency) : Prop := L.Pairwise fun e f => e.probability ≤ f.probability

theorem ascending_insertEntry (e : SymbolFrequency) {L : List SymbolFrequency} (h : Ascending L) :
    Ascending (insertEntry e L) := by
  induction L with
  | nil => exact List.pairwise_singleton _ e
  | cons f rest ih =>
    obtain ⟨hf, hrest⟩ := List.pairwise_cons.1 h
    rw [insertEntry]
    split
    case isTrue hlt =>
      refine List.pairwise_cons.2 ⟨fun g hg => ?_, h⟩
      rcases List.mem_cons.1 hg with rfl | hg
      · exact hlt.le
      · exact hlt.le.trans (hf g hg)
    case isFalse hle =>
      refine List.pairwise_cons.2 ⟨fun g hg => ?_, ih hrest⟩
      rcases List.mem_cons.1 ((insertEntry_perm e rest).mem_iff.1 hg) with rfl | hg
      · exact not_lt.1 hle
      · exact hf g hg

/-- Among the entries of one probability the inserted one comes last. -/
theorem filter_insertEntry (e : SymbolFrequency) (p : Rat) {L : List SymbolFrequency} (h : Ascending L) :
    (insertEntry e L).filter (fun f => f.probability = p) =
      L.filter (fun f => f.probability = p) ++ [e].filter (fun f => f.probability = p) := by
  induction L with
  | nil => rfl
  | cons f rest ih =>
    obtain ⟨hf, hrest⟩ := List.pairwise_cons.1 h
    rw [insertEntry]
    split
    case isTrue hlt =>
      by_cases hp : e.probability = p
      · have habove : (f :: rest).filter (fun f => f.probability = p) = [] := by
          refine List.filter_eq_nil_iff.2 fun g hg => ?_
          have hge : f.probability ≤ g.probability :=
            (List.mem_cons.1 hg).elim (fun heq => heq ▸ le_refl _) (hf g)
          simpa [hp] using (hlt.trans_le hge).ne'
        rw [List.filter_cons, habove, List.nil_append, List.filter_cons, List.filter_nil]
      · simp [List.filter_cons (x := e), hp]
    case isFalse =>
      rw [List.filter_cons, List.filter_cons, ih hrest]
      split <;> rfl

section
variable {α : Type} (entry : α → SymbolFrequency)

theorem ascending_foldl_insertEntry (xs : List α) {L : List SymbolFrequency} (h : Ascending L) :
    Ascending (xs.foldl (fun L x => insertEntry (entry x) L) L) := by
  induction xs generalizing L with
  | nil => exact h
  | cons x rest ih => exact ih (ascending_insertEntry (entry x) h)

theorem filter_foldl_insertEntry (p : Rat) (xs : List α) {L : List SymbolFrequency} (h : Ascending L) :
    (xs.foldl (fun L x => insertEntry (entry x) L) L).filter (fun f => f.probability = p) =
      L.filter (fun f => f.probability = p) ++ (xs.map entry).filter (fun f => f.probability = p) := by
  induction xs generalizing L with
  | nil => exact (List.append_nil _).symm
  | cons x rest ih =>
    rw [List.foldl_cons, ih (ascending_insertEntry (entry x) h), filter_insertEntry (entry x) p h, List.append_assoc,
      ← List.filter_append, List.singleton_append, List.map_cons]

end

theorem sortedEntries_ascending (order : Config.DiscoveryOrder) (source : List Symbol) :
    Ascending (sortedEntries order source) :=
  ascending_foldl_insertEntry (entryOf source) _ .nil

theorem sortedEntries_stable (order : Config.DiscoveryOrder) (source : List Symbol) (p : Rat) :
    (sortedEntries order source).filter (fun e => e.probability = p) =
      ((discovered order source).map (entryOf source)).filter (fun e => e.probability = p) :=
  filter_foldl_insertEntry (entryOf source) p (discovered order source) .nil

/-- Settles O52: each insertion keeps the list ascending and comes last among its equals. -/
theorem frequencyListSortedStable : Obligations.FrequencyListSortedStable := fun order source =>
  ⟨sortedEntries_ascending order source, sortedEntries_stable order source, discovered_nodup order source,
    fun _ => mem_discovered⟩

/-! What the builder selects, and one pass of its loop (R133). -/

theorem select_of_le {x y : Item} (h : x.probability ≤ y.probability) (S T : List Item) :
    select (x :: S) (y :: T) = some (x, S, y :: T) := if_pos h

theorem select_of_lt {x y : Item} (h : y.probability < x.probability) (S T : List Item) :
    select (x :: S) (y :: T) = some (y, x :: S, T) := if_neg (not_le.2 h)

/-- Selecting takes one item out of the two queues. -/
theorem select_perm {S T S' T' : List Item} {x : Item} (h : select S T = some (x, S', T')) :
    (S ++ T).Perm (x :: (S' ++ T')) := by
  unfold select at h
  split at h
  case h_1 s S t T =>
    split at h <;> cases h
    · exact .refl _
    · exact List.perm_middle
  case h_2 => cases h; exact .refl _
  case h_3 => cases h; exact .refl _
  case h_4 => cases h

theorem exists_select {S T : List Item} (h : S ++ T ≠ []) : ∃ x S' T', select S T = some (x, S', T') := by
  match S, T with
  | s :: S, t :: T =>
    rw [select]
    split <;> exact ⟨_, _, _, rfl⟩
  | s :: S, [] => exact ⟨s, S, [], rfl⟩
  | [], t :: T => exact ⟨t, [], T, rfl⟩
  | [], [] => exact absurd rfl h

/-- The node that joins two items, the first to the left, at the next index (R133, R137). -/
def joinItems (next : Nat) (first second : Item) : Item :=
  ⟨next, .node (first.probability + second.probability) first.tree second.tree⟩

/-- One pass: the two selected items are joined at the end of Target. -/
theorem buildLoop_pass {fuel next : Nat} {S T S₁ T₁ S₂ T₂ : List Item} {first second : Item}
    (hmore : S ≠ [] ∨ 1 < T.length) (h₁ : select S T = some (first, S₁, T₁))
    (h₂ : select S₁ T₁ = some (second, S₂, T₂)) :
    buildLoop (fuel + 1) next S T =
      (buildLoop fuel (next + 1) S₂ (T₂ ++ [joinItems next first second])).map fun (root, nodes) =>
        (root, ⟨next, first.index, second.index⟩ :: nodes) := by
  conv_lhs => unfold buildLoop
  split
  case h_1 => simp at hmore
  case h_2 => simp at hmore
  case h_3 => simp only [h₁, h₂, joinItems]

/-- All the loop can do when it gives a tree: stop at the one node left in Target, or make a pass. -/
theorem buildLoop_cases {fuel next : Nat} {S T : List Item} {root : Item} {nodes : List NodeRecord}
    (h : buildLoop (fuel + 1) next S T = some (root, nodes)) :
    (S = [] ∧ T = [root] ∧ nodes = []) ∨
    ∃ first second S₁ T₁ S₂ T₂ rest, select S T = some (first, S₁, T₁) ∧ select S₁ T₁ = some (second, S₂, T₂) ∧
      buildLoop fuel (next + 1) S₂ (T₂ ++ [joinItems next first second]) = some (root, rest) ∧
      nodes = ⟨next, first.index, second.index⟩ :: rest := by
  unfold buildLoop at h
  split at h
  case h_1 => cases h; exact .inl ⟨rfl, rfl, rfl⟩
  case h_2 => cases h
  case h_3 =>
    split at h
    case h_1 => cases h
    case h_2 first S₁ T₁ h₁ =>
      split at h
      case h_1 => cases h
      case h_2 second S₂ T₂ h₂ =>
        obtain ⟨⟨_, rest⟩, hloop, e⟩ := Option.map_eq_some_iff.1 h
        cases e
        exact .inr ⟨first, second, S₁, T₁, S₂, T₂, rest, h₁, h₂, hloop, rfl⟩

/-- With a pass for each item, and never one item alone in Source, the loop comes to one node. -/
theorem exists_buildLoop {fuel : Nat} (next : Nat) {S T : List Item} (hfuel : (S ++ T).length ≤ fuel)
    (hitems : S ++ T ≠ []) (hsource : S = [] ∨ 2 ≤ (S ++ T).length) :
    ∃ root nodes, buildLoop fuel next S T = some (root, nodes) := by
  have hpos := List.length_pos_iff.2 hitems
  induction fuel generalizing next S T with
  | zero => omega
  | succ fuel ih =>
    by_cases hmore : S ≠ [] ∨ 1 < T.length
    · have htwo : 2 ≤ (S ++ T).length := by
        rcases hmore with hS | hT
        · exact hsource.resolve_left hS
        · rw [List.length_append]; omega
      obtain ⟨first, S₁, T₁, h₁⟩ := exists_select hitems
      have hlen₁ := (select_perm h₁).length_eq
      rw [List.length_cons] at hlen₁
      obtain ⟨second, S₂, T₂, h₂⟩ := exists_select (List.length_pos_iff.1 (by omega : 0 < (S₁ ++ T₁).length))
      have hlen₂ := (select_perm h₂).length_eq
      rw [List.length_cons] at hlen₂
      have hlen : (S₂ ++ (T₂ ++ [joinItems next first second])).length = (S₂ ++ T₂).length + 1 := by
        rw [← List.append_assoc, List.length_append, List.length_singleton]
      have hlast : S₂ = [] ∨ 2 ≤ (S₂ ++ (T₂ ++ [joinItems next first second])).length := by
        refine or_iff_not_imp_left.2 fun hne => ?_
        have := List.length_pos_iff.2 hne
        rw [hlen, List.length_append]
        omega
      obtain ⟨root, rest, hloop⟩ := ih (next + 1) (by omega) (List.length_pos_iff.1 (by omega)) hlast (by omega)
      exact ⟨root, _, by rw [buildLoop_pass hmore h₁ h₂, hloop]; rfl⟩
    · obtain ⟨hS, hT⟩ := not_or.1 hmore
      obtain rfl : S = [] := not_not.1 hS
      obtain ⟨root, rfl⟩ := List.length_eq_one_iff.1 (by rw [List.nil_append] at hpos; omega : T.length = 1)
      exact ⟨root, [], rfl⟩

/-! What is built from a pool of items, whatever the order of selection. -/

/-- From a pool of items: the one item left, or two of them joined at the next index and the rest of the building.
`built_of_buildLoop` ties it to the loop. -/
inductive Built : Nat → List Item → Item → List NodeRecord → Prop
  | done (next : Nat) (root : Item) : Built next [root] root []
  | pass {next : Nat} {pool others : List Item} {first second root : Item} {nodes : List NodeRecord}
      (selected : pool.Perm (first :: second :: others))
      (rest : Built (next + 1) (joinItems next first second :: others) root nodes) :
      Built next pool root (⟨next, first.index, second.index⟩ :: nodes)

theorem Built.of_perm {next : Nat} {pool pool' : List Item} {root : Item} {nodes : List NodeRecord}
    (h : Built next pool root nodes) (hp : pool'.Perm pool) : Built next pool' root nodes := by
  cases h with
  | done => rw [hp.eq_singleton]; exact .done next root
  | pass selected rest => exact .pass (hp.trans selected) rest

theorem built_of_buildLoop {fuel next : Nat} {S T : List Item} {root : Item} {nodes : List NodeRecord}
    (h : buildLoop fuel next S T = some (root, nodes)) : Built next (S ++ T) root nodes := by
  induction fuel generalizing next S T nodes with
  | zero => cases h
  | succ fuel ih =>
    obtain ⟨rfl, rfl, rfl⟩ | ⟨first, second, S₁, T₁, S₂, T₂, rest, h₁, h₂, hloop, rfl⟩ := buildLoop_cases h
    · exact .done next root
    · have hjoined : (joinItems next first second :: (S₂ ++ T₂)).Perm
          (S₂ ++ (T₂ ++ [joinItems next first second])) := by
        rw [← List.append_assoc]
        exact (List.perm_append_singleton _ _).symm
      exact .pass ((select_perm h₁).trans ((select_perm h₂).cons first)) ((ih hloop).of_perm hjoined)

/-- Joining moves leaves together and loses none. -/
theorem Built.leaves_perm {next : Nat} {pool : List Item} {root : Item} {nodes : List NodeRecord}
    (h : Built next pool root nodes) : root.tree.leaves.Perm (pool.flatMap fun x => x.tree.leaves) := by
  induction h with
  | done next root => simp
  | pass selected rest ih =>
    refine ih.trans (.trans ?_ (selected.flatMap_right _).symm)
    simp [joinItems, TreeNode.leaves]

/-- Each join makes one internal node and leaves one item less. -/
theorem Built.internalCount {next : Nat} {pool : List Item} {root : Item} {nodes : List NodeRecord}
    (h : Built next pool root nodes) :
    root.tree.internalCount + 1 = (pool.map fun x => x.tree.internalCount).sum + pool.length := by
  induction h with
  | done next root => simp
  | pass selected rest ih =>
    rw [(selected.map _).sum_eq, selected.length_eq, ih]
    simp [joinItems, TreeNode.internalCount]
    omega

/-! `build` (R132 to R134). -/

/-- The symbol a list entry gives its leaf (R132; log entry 22). -/
def leafSymbol (e : SymbolFrequency) : Symbol := e.symbol.getD 0#7

theorem leafItems_length (k : Nat) (L : List SymbolFrequency) : (leafItems k L).length = L.length := by
  induction L generalizing k with
  | nil => rfl
  | cons e rest ih => rw [leafItems, List.length_cons, ih, List.length_cons]

theorem leafItems_leaves (k : Nat) (L : List SymbolFrequency) :
    ((leafItems k L).flatMap fun x => x.tree.leaves) = L.map leafSymbol := by
  induction L generalizing k with
  | nil => rfl
  | cons e rest ih => rw [leafItems, List.flatMap_cons, ih]; rfl

theorem leafItems_internalCount (k : Nat) (L : List SymbolFrequency) :
    ((leafItems k L).map fun x => x.tree.internalCount).sum = 0 := by
  induction L generalizing k with
  | nil => rfl
  | cons e rest ih => rw [leafItems, List.map_cons, List.sum_cons, ih]; rfl

theorem built_of_buildItems {L : List SymbolFrequency} {root : Item} {nodes : List NodeRecord}
    (h : buildItems L = some (root, nodes)) : Built L.length (leafItems 0 L) root nodes := by
  simpa using built_of_buildLoop h

theorem build_eq_some_iff {L : List SymbolFrequency} {root : TreeNode} :
    build L = some root ↔ ∃ x nodes, buildItems L = some (x, nodes) ∧ x.tree = root := by
  simp [build]

theorem exists_build {L : List SymbolFrequency} (h : 2 ≤ L.length) : ∃ root, build L = some root := by
  have hlen : (leafItems 0 L ++ []).length = L.length := by rw [List.append_nil, leafItems_length]
  obtain ⟨root, nodes, hloop⟩ := exists_buildLoop (fuel := L.length + 1) L.length (S := leafItems 0 L) (T := [])
    (by omega) (List.length_pos_iff.1 (by omega)) (.inr (by omega))
  exact ⟨root.tree, build_eq_some_iff.2 ⟨root, nodes, hloop, rfl⟩⟩

theorem build_of_length_lt_two {L : List SymbolFrequency} (h : L.length < 2) : build L = none := by
  match L, h with
  | [], _ => rfl
  | [_], _ => rfl

theorem two_le_length_of_build {L : List SymbolFrequency} {root : TreeNode} (h : build L = some root) :
    2 ≤ L.length := by
  refine Nat.not_lt.1 fun hlt => ?_
  cases (build_of_length_lt_two hlt).symm.trans h

section
variable {L : List SymbolFrequency} {root : TreeNode} (h : build L = some root)
include h

theorem leaves_perm_of_build : root.leaves.Perm (L.map leafSymbol) := by
  obtain ⟨x, nodes, hitems, rfl⟩ := build_eq_some_iff.1 h
  rw [← leafItems_leaves 0 L]
  exact (built_of_buildItems hitems).leaves_perm

theorem internalCount_of_build : root.internalCount + 1 = L.length := by
  obtain ⟨x, nodes, hitems, rfl⟩ := build_eq_some_iff.1 h
  rw [(built_of_buildItems hitems).internalCount, leafItems_internalCount, leafItems_length, Nat.zero_add]

theorem isNode_of_build : root.isNode = true := by
  have hcount := internalCount_of_build h
  have htwo := two_le_length_of_build h
  cases root with
  | leaf => simp only [TreeNode.internalCount] at hcount; omega
  | node => rfl

end

/-- Two entries make one node over two leaves. -/
theorem build_pair (a b : SymbolFrequency) : build [a, b] = some
    (.node (a.probability + b.probability) (.leaf (leafSymbol a) a.probability) (.leaf (leafSymbol b) b.probability)) :=
  rfl

/-! The list and the tree of a source (R126, R129, R140). -/

/-- A list is the sorted entries of two or more symbols, or the one entry behind the synthetic one. -/
theorem freqList_cases {order : Config.DiscoveryOrder} {source : List Symbol} {L : List SymbolFrequency}
    (h : freqList order source = .ok L) :
    (∃ sym, discovered order source = [sym] ∧ sortedEntries order source = [entryOf source sym] ∧
      L = [syntheticEntry sym, entryOf source sym]) ∨
    (2 ≤ (discovered order source).length ∧ L = sortedEntries order source) := by
  have hlen := sortedEntries_length order source
  unfold freqList at h
  split at h
  case h_1 => cases h
  case h_2 e hone =>
    cases h
    rw [hone] at hlen
    obtain ⟨sym, hsym⟩ := List.length_eq_one_iff.1 hlen.symm
    have hentry := sortedEntries_perm order source
    rw [hone, hsym] at hentry
    obtain rfl : e = entryOf source sym := List.singleton_perm_singleton.1 hentry
    exact .inl ⟨sym, hsym, hone, rfl⟩
  case h_3 hnil hone =>
    cases h
    refine .inr ⟨?_, rfl⟩
    rw [← hlen]
    match hL : sortedEntries order source with
    | [] => exact absurd hL hnil
    | [e] => exact absurd hL (hone e)
    | _ :: _ :: rest => exact Nat.le_add_left _ _

theorem leafSymbol_syntheticEntry_ne (sym : Symbol) : leafSymbol (syntheticEntry sym) ≠ sym := by
  revert sym
  decide

theorem sortedEntries_symbols_perm (order : Config.DiscoveryOrder) (source : List Symbol) :
    ((sortedEntries order source).map leafSymbol).Perm (discovered order source) := by
  have hid : leafSymbol ∘ entryOf source = id := rfl
  have h := (sortedEntries_perm order source).map leafSymbol
  rwa [List.map_map, hid, List.map_id] at h

theorem entryOf_probability_nonneg (source : List Symbol) (sym : Symbol) : 0 ≤ (entryOf source sym).probability :=
  div_nonneg (Nat.cast_nonneg _) (Nat.cast_nonneg _)

section
variable {order : Config.DiscoveryOrder} {source : List Symbol} {L : List SymbolFrequency}
  (h : freqList order source = .ok L)
include h

theorem freqList_symbols_nodup : (L.map leafSymbol).Nodup := by
  obtain ⟨sym, -, -, rfl⟩ | ⟨-, rfl⟩ := freqList_cases h
  · have hne : leafSymbol (syntheticEntry sym) ≠ leafSymbol (entryOf source sym) := leafSymbol_syntheticEntry_ne sym
    simpa using hne
  · exact (sortedEntries_symbols_perm order source).nodup_iff.2 (discovered_nodup order source)

theorem mem_freqList_symbols {sym : Symbol} (hsym : sym ∈ source) : sym ∈ L.map leafSymbol := by
  have hmem := (sortedEntries_symbols_perm order source).mem_iff.2 (mem_discovered.2 hsym)
  obtain ⟨one, -, hone, rfl⟩ | ⟨-, rfl⟩ := freqList_cases h
  · rw [hone] at hmem
    exact List.mem_cons_of_mem _ hmem
  · exact hmem

theorem freqList_ascending : Ascending L := by
  obtain ⟨sym, -, -, rfl⟩ | ⟨-, rfl⟩ := freqList_cases h
  · exact List.pairwise_pair.2 (entryOf_probability_nonneg source sym)
  · exact sortedEntries_ascending order source

theorem freqList_stable {p : Rat} (hp : p ≠ 0) :
    L.filter (fun e => e.probability = p) =
      ((discovered order source).map (entryOf source)).filter (fun e => e.probability = p) := by
  rw [← sortedEntries_stable]
  obtain ⟨sym, -, hone, rfl⟩ | ⟨-, rfl⟩ := freqList_cases h
  · have hsynthetic : (syntheticEntry sym).probability ≠ p := hp.symm
    rw [hone, List.filter_cons, if_neg (by simpa using hsynthetic)]
  · rfl

end

theorem treeOf_eq_ok {order : Config.DiscoveryOrder} {source : List Symbol} {root : TreeNode}
    (h : treeOf order source = .ok root) : ∃ L, freqList order source = .ok L ∧ build L = some root := by
  unfold treeOf treeOfList at h
  split at h
  case h_1 => cases h
  case h_2 L hL =>
    split at h
    case h_1 hbuild => cases h; exact ⟨L, hL, hbuild⟩
    case h_2 => cases h

/-- The symbols at the leaves of a source's tree are distinct. -/
theorem leaves_nodup_of_treeOf {order : Config.DiscoveryOrder} {source : List Symbol} {L : List SymbolFrequency}
    {root : TreeNode} (hL : freqList order source = .ok L) (hbuild : build L = some root) : root.leaves.Nodup :=
  (leaves_perm_of_build hbuild).nodup_iff.2 (freqList_symbols_nodup hL)

/-- (b) of R140: the one distinct symbol is the right leaf, the synthetic one the left. -/
theorem build_of_one_symbol {order : Config.DiscoveryOrder} {source : List Symbol} {L : List SymbolFrequency}
    {root : TreeNode} (hL : freqList order source = .ok L) (hbuild : build L = some root) {sym : Symbol}
    (hone : ∀ x ∈ source, x = sym) : ∃ other, other ≠ sym ∧ root = .node 1 (.leaf other 0) (.leaf sym 1) := by
  have hsource : source = List.replicate source.length sym := List.eq_replicate_of_mem hone
  cases hlen : source.length with
  | zero =>
    rw [List.length_eq_zero_iff.1 hlen, freqList_of_nil (sortedEntries_nil order)] at hL
    cases hL
  | succ n =>
    rw [hsource, hlen, freqList_of_singleton (sortedEntries_replicate order sym n)] at hL
    cases hL
    rw [build_pair] at hbuild
    cases hbuild
    exact ⟨_, leafSymbol_syntheticEntry_ne sym, by simp [syntheticEntry, leafSymbol]⟩

/-- (d) of R140: one internal node less than distinct symbols. -/
theorem internalCount_of_treeOf {order : Config.DiscoveryOrder} {source : List Symbol} {L : List SymbolFrequency}
    {root : TreeNode} (hL : freqList order source = .ok L) (hbuild : build L = some root)
    (htwo : 2 ≤ (firstSeen source).length) : root.internalCount + 1 = (firstSeen source).length := by
  have hdistinct : (discovered order source).length = (firstSeen source).length :=
    (discovered_perm order (firstSeen_nodup source) fun _ => mem_firstSeen.symm).length_eq
  rw [internalCount_of_build hbuild, ← hdistinct, ← sortedEntries_length]
  obtain ⟨sym, hone, -, -⟩ | ⟨-, rfl⟩ := freqList_cases hL
  · rw [← hdistinct, hone] at htwo
    exact absurd htwo (Nat.not_succ_le_self 1)
  · rfl

theorem constructionProperties_of_treeOf {order : Config.DiscoveryOrder} {source : List Symbol} {root : TreeNode}
    (h : treeOf order source = .ok root) : ConstructionProperties order source root := by
  obtain ⟨L, hL, hbuild⟩ := treeOf_eq_ok h
  have hd := leaves_nodup_of_treeOf hL hbuild
  have hnode := isNode_of_build hbuild
  constructor
  case sorted => exact fun _ hL => freqList_ascending hL
  case stable => exact fun _ _ hL hp => freqList_stable hL hp
  case twoLeaves => exact fun _ hone => build_of_one_symbol hL hbuild hone
  case prefixFree => exact fun _ _ _ _ => TreeNode.not_isPrefix_of_code hd
  case nodes => exact internalCount_of_treeOf hL hbuild
  case depth => exact fun _ _ => TreeNode.code_length hd hnode

/-- Settles O54: the selection and the pass by the loop's equations, the shape from what is built from the leaves in
any order of selection, and R140 from the list's distinct symbols. -/
theorem builderShape : Obligations.BuilderShape := by
  refine ⟨fun x y S T => ⟨(select_of_le · S T), (select_of_lt · S T), rfl, rfl⟩,
    fun fuel next S T S₁ T₁ S₂ T₂ first second hmore h₁ h₂ => ?_, fun _ _ _ => rfl, ?_,
    fun L => build_of_length_lt_two, fun L htwo => ?_, fun _ _ _ => constructionProperties_of_treeOf⟩
  · rw [buildLoop_pass hmore h₁ h₂, Option.map_map]
    rfl
  · decide +kernel
  · obtain ⟨root, hbuild⟩ := exists_build htwo
    have hcount := internalCount_of_build hbuild
    exact ⟨root, hbuild, by omega, isNode_of_build hbuild, leaves_perm_of_build hbuild⟩

/-- Every source with a symbol gives a tree (R126 to R134). -/
theorem exists_treeOf (order : Config.DiscoveryOrder) {source : List Symbol} (h : source ≠ []) :
    ∃ L root, freqList order source = .ok L ∧ build L = some root ∧ treeOf order source = .ok root := by
  obtain ⟨sym, hsym⟩ := List.exists_mem_of_ne_nil source h
  have hpos : sortedEntries order source ≠ [] := by
    refine List.length_pos_iff.1 ?_
    rw [sortedEntries_length]
    exact List.length_pos_of_mem (mem_discovered.2 hsym)
  obtain ⟨L, hL⟩ : ∃ L, freqList order source = .ok L := by
    unfold freqList
    split
    case h_1 hnil => exact absurd hnil hpos
    all_goals exact ⟨_, rfl⟩
  have htwo : 2 ≤ L.length := by
    obtain ⟨one, -, -, rfl⟩ | ⟨hlen, rfl⟩ := freqList_cases hL
    · exact Nat.le_refl 2
    · rwa [sortedEntries_length]
  obtain ⟨root, hbuild⟩ := exists_build htwo
  exact ⟨L, root, hL, hbuild, by simp only [treeOf, hL, treeOfList, hbuild]⟩

/-- Settles O57: the tree's leaves are distinct and hold every symbol of the source. -/
theorem sourceRoundTrip : Obligations.SourceRoundTrip := by
  intro order source hsource
  obtain ⟨L, root, hL, hbuild, htree⟩ := exists_treeOf order hsource
  have hleaves (sym : Symbol) (hsym : sym ∈ source) : sym ∈ root.leaves :=
    (leaves_perm_of_build hbuild).mem_iff.2 (mem_freqList_symbols hL hsym)
  obtain ⟨bytes, hbytes⟩ :=
    decodeBytes_of_encodeText (isNode_of_build hbuild) (leaves_nodup_of_treeOf hL hbuild) hleaves
  exact ⟨root, bytes, htree, hbytes⟩

end Sys2Proof.Machine
end

section
/-! SUPPORT. The statements about the load images (40_host_construction.md R137, R138): what TR holds after the TR
image and CT after the CT image, sent in IDLE. -/

namespace Sys2Proof.Machine

open Sys2Proof.Claims

theorem after_of_idle {s : State} (hm : s.mode = .idle) {i : Instr} (ha : admittedIn i .idle = true) :
    after i s = ownRule i s :=
  after_of_admitted (by simp [hm]) (hm ▸ ha)

theorem afterAll_append (as bs : List Instr) (s : State) : afterAll (as ++ bs) s = afterAll bs (afterAll as s) :=
  List.foldl_append

/-! Trees at the low indices of TR. -/

/-- TR holds a tree whose root is at index `k`, all of whose entries are at indices below `n`. `holds_of_heldBelow`
ties it to `holds`. -/
def State.HeldBelow (s : State) (n : Nat) : Nat → TreeNode → Prop
  | k, .leaf sym _ => k < n ∧ s.readTr (BitVec.ofNat 8 k) = some (.leaf sym)
  | k, .node _ l r => k < n ∧ ∃ i j, s.readTr (BitVec.ofNat 8 k) = some (.int (BitVec.ofNat 8 i) (BitVec.ofNat 8 j)) ∧
      s.HeldBelow n i l ∧ s.HeldBelow n j r

theorem State.holds_of_heldBelow {s : State} {n k : Nat} {T : TreeNode} (h : s.HeldBelow n k T) :
    s.holds (BitVec.ofNat 8 k) T := by
  induction T generalizing k with
  | leaf sym p => exact h.2
  | node p l r ihl ihr =>
    obtain ⟨-, i, j, hk, hl, hr⟩ := h
    exact ⟨BitVec.ofNat 8 i, BitVec.ofNat 8 j, hk, ihl hl, ihr hr⟩

/-- The next entry of a layout does not touch an earlier one, as long as the indices fit in TR. -/
theorem State.readTr_writeTr_of_lt (s : State) {k n : Nat} (hk : k < n) (hn : n < 256) (e : TrEntry) :
    (s.writeTr (BitVec.ofNat 8 n) e).readTr (BitVec.ofNat 8 k) = s.readTr (BitVec.ofNat 8 k) := by
  refine s.readTr_writeTr_other e fun h => hk.ne ?_
  have htoNat := congrArg BitVec.toNat h
  rwa [BitVec.toNat_ofNat, BitVec.toNat_ofNat, Nat.mod_eq_of_lt (hk.trans hn), Nat.mod_eq_of_lt hn] at htoNat

theorem State.HeldBelow.writeTr {s : State} {n k : Nat} {T : TreeNode} (h : s.HeldBelow n k T) (hn : n < 256)
    (e : TrEntry) : (s.writeTr (BitVec.ofNat 8 n) e).HeldBelow (n + 1) k T := by
  induction T generalizing k with
  | leaf sym p =>
    obtain ⟨hk, hread⟩ := h
    exact ⟨hk.trans n.lt_succ_self, (s.readTr_writeTr_of_lt hk hn e).trans hread⟩
  | node p l r ihl ihr =>
    obtain ⟨hk, i, j, hread, hl, hr⟩ := h
    exact ⟨hk.trans n.lt_succ_self, i, j, (s.readTr_writeTr_of_lt hk hn e).trans hread, ihl hl, ihr hr⟩

/-! The TR image: the leaves, then the nodes in creation order (R137). -/

/-- The command of the TR image for a leaf item. -/
def leafCommand (x : Item) : Instr := .trLeaf (BitVec.ofNat 8 x.index) (x.tree.data.symbol.getD 0#7)

/-- The command of the TR image for an internal node. -/
def nodeCommand (n : NodeRecord) : Instr :=
  .trNode (BitVec.ofNat 8 n.index) (BitVec.ofNat 8 n.left) (BitVec.ofNat 8 n.right)

theorem trImage_eq_some {L : List SymbolFrequency} {image : List Instr} (h : trImage L = some image) :
    ∃ root nodes, buildItems L = some (root, nodes) ∧
      image = (leafItems 0 L).map leafCommand ++ nodes.map nodeCommand ++ [.setRoot (BitVec.ofNat 8 root.index)] := by
  obtain ⟨⟨root, nodes⟩, hitems, rfl⟩ := Option.map_eq_some_iff.1 h
  exact ⟨root, nodes, hitems, rfl⟩

/-- The leaves' commands write TR alone, keep what was held below them, and leave each leaf held. -/
theorem heldBelow_afterAll_leafItems (L : List SymbolFrequency) {k : Nat} (hroom : k + L.length ≤ 256) {s : State}
    (hm : s.mode = .idle) : ∃ t, afterAll ((leafItems k L).map leafCommand) s = t ∧ t = { s with tr := t.tr } ∧
      (∀ i T, s.HeldBelow k i T → t.HeldBelow (k + L.length) i T) ∧
      ∀ x ∈ leafItems k L, t.HeldBelow (k + L.length) x.index x.tree := by
  induction L generalizing k s with
  | nil => exact ⟨s, rfl, rfl, fun _ _ h => h, nofun⟩
  | cons e rest ih =>
    rw [List.length_cons] at hroom ⊢
    have hk : k < 256 := by omega
    have hwrite : after (leafCommand ⟨k, .leaf (e.symbol.getD 0#7) e.probability⟩) s =
        s.writeTr (BitVec.ofNat 8 k) (.leaf (e.symbol.getD 0#7)) := after_of_idle hm rfl
    obtain ⟨t, ht, hframe, hkeep, hleaves⟩ := ih (k := k + 1) (by omega)
      (s := s.writeTr (BitVec.ofNat 8 k) (.leaf (e.symbol.getD 0#7))) hm
    rw [Nat.add_right_comm k 1, Nat.add_assoc k] at hkeep hleaves
    refine ⟨t, ?_, hframe.trans rfl, fun i T h => hkeep i T (h.writeTr hk _), fun x hx => ?_⟩
    · rw [leafItems, List.map_cons, afterAll_cons, hwrite, ht]
    · rcases List.mem_cons.1 hx with rfl | hx
      · exact hkeep _ _ ⟨k.lt_succ_self, s.readTr_writeTr_same _ _⟩
      · exact hleaves x hx

/-- The nodes' commands write TR alone, and leave the root held when the pool was. -/
theorem Built.holds_afterAll_nodes {next : Nat} {pool : List Item} {root : Item} {nodes : List NodeRecord}
    (h : Built next pool root nodes) (hroom : next + pool.length ≤ 257) {s : State} (hm : s.mode = .idle)
    (hpool : ∀ x ∈ pool, s.HeldBelow next x.index x.tree) :
    ∃ t, afterAll (nodes.map nodeCommand) s = t ∧ t = { s with tr := t.tr } ∧
      t.holds (BitVec.ofNat 8 root.index) root.tree := by
  induction h generalizing s with
  | done next root => exact ⟨s, rfl, rfl, State.holds_of_heldBelow (hpool root List.mem_cons_self)⟩
  | @pass next pool others first second root nodes selected rest ih =>
    have hlen := selected.length_eq
    rw [List.length_cons, List.length_cons] at hlen
    have hnext : next < 256 := by omega
    have hwrite : after (nodeCommand ⟨next, first.index, second.index⟩) s = s.writeTr (BitVec.ofNat 8 next)
        (.int (BitVec.ofNat 8 first.index) (BitVec.ofNat 8 second.index)) := after_of_idle hm rfl
    have hkept (x : Item) (hx : x ∈ first :: second :: others) :=
      (hpool x (selected.mem_iff.2 hx)).writeTr hnext
        (.int (BitVec.ofNat 8 first.index) (BitVec.ofNat 8 second.index))
    have hjoined : ∀ x ∈ joinItems next first second :: others, State.HeldBelow (s.writeTr (BitVec.ofNat 8 next)
        (.int (BitVec.ofNat 8 first.index) (BitVec.ofNat 8 second.index))) (next + 1) x.index x.tree := by
      refine List.forall_mem_cons.2 ⟨?_, fun x hx => hkept x (by simp [hx])⟩
      exact ⟨next.lt_succ_self, first.index, second.index, s.readTr_writeTr_same _ _, hkept first (by simp),
        hkept second (by simp)⟩
    obtain ⟨t, ht, hframe, hheld⟩ := ih (by rw [List.length_cons]; omega) (s := s.writeTr (BitVec.ofNat 8 next)
      (.int (BitVec.ofNat 8 first.index) (BitVec.ofNat 8 second.index))) hm hjoined
    exact ⟨t, by rw [List.map_cons, afterAll_cons, hwrite, ht], hframe.trans rfl, hheld⟩

/-- Settles O58: every command of the image writes a fresh index, so what was held stays held, and the children of a
node are held before it is written. -/
theorem treeImageHoldsTree : Obligations.TreeImageHoldsTree := by
  intro L image root s hlen himage hbuild hm
  obtain ⟨x, nodes, hitems, rfl⟩ := trImage_eq_some himage
  obtain ⟨x', nodes', hitems', rfl⟩ := build_eq_some_iff.1 hbuild
  cases hitems.symm.trans hitems'
  obtain ⟨t, ht, hframe, -, hleaves⟩ := heldBelow_afterAll_leafItems L (k := 0) (by omega) hm
  rw [Nat.zero_add] at hleaves
  have htm : t.mode = .idle := by rw [hframe]; exact hm
  obtain ⟨u, hu, huframe, hheld⟩ := (built_of_buildItems hitems).holds_afterAll_nodes
    (by rw [leafItems_length]; omega) htm hleaves
  have hum : u.mode = .idle := by rw [huframe]; exact htm
  refine ⟨{ u with root := BitVec.ofNat 8 x.index }, ?_, State.holds_of_tr hheld rfl, ?_⟩
  · rw [execAll_eq_afterAll, afterAll_concat, afterAll_append, ht, hu, after_of_idle hum rfl]
    rfl
  · rw [huframe, hframe]

/-! The CT image, symbol by symbol (R138). -/

/-- The CT image leaves in an entry the symbol's code, or nothing where an earlier session set the entry, or what was
there. -/
def loadedEntry (earlier : List Symbol) (ct : CodeTable) (sym : Symbol) (old : Option Bits) : Option Bits :=
  match ct.code sym with
  | some code => some code
  | none => if sym ∈ earlier then none else old

/-- The bits of a code are appended one by one to the selected entry (R156). -/
theorem ctSet_afterAll_ctBit (code : Bits) {s : State} (hm : s.mode = .idle) {acc : Bits}
    (hread : s.readCt s.ctsel = some acc) (hlen : acc.length + code.length ≤ 127) :
    ∃ t, afterAll (code.map .ctBit) s = t ∧ t = { s with ct := t.ct } ∧
      CtSet s t s.ctsel (some (acc ++ code)) := by
  induction code generalizing s acc with
  | nil => exact ⟨s, rfl, rfl, by rwa [List.append_nil], fun _ _ => rfl⟩
  | cons v vs ih =>
    rw [List.length_cons] at hlen
    have hroom : ¬ acc.length = Config.maxCode := by simp only [Config.maxCode]; omega
    have hbit : after (.ctBit v) s = s.writeCt s.ctsel (acc ++ [v]) := by
      rw [after_of_idle hm rfl]
      simp only [ownRule, hread, if_neg hroom]
    obtain ⟨t, ht, hframe, hset, hother⟩ := ih (s := s.writeCt s.ctsel (acc ++ [v])) hm (acc := acc ++ [v])
      (s.readCt_writeCt_same _ _) (by rw [List.length_append, List.length_singleton]; omega)
    refine ⟨t, by rw [List.map_cons, afterAll_cons, hbit, ht], hframe.trans rfl, ?_, fun j hj => ?_⟩
    · rw [← List.singleton_append, ← List.append_assoc]
      exact hset
    · exact (hother j hj).trans (s.readCt_writeCt_other _ hj)

/-- CT_NEW and the bits leave the code in the entry (R108, R155, R156). -/
theorem ctSet_afterAll_ctLoad (sym : Symbol) {code : Bits} (hlen : code.length ≤ 127) {s : State}
    (hm : s.mode = .idle) : ∃ t, afterAll (ctLoad sym code) s = t ∧ t = { s with ct := t.ct, ctsel := t.ctsel } ∧
      CtSet s t sym (some code) := by
  have hnew : after (.ctNew sym) s = { s.writeCt sym [] with ctsel := sym } := after_of_idle hm rfl
  obtain ⟨t, ht, hframe, hset, hother⟩ := ctSet_afterAll_ctBit code (s := { s.writeCt sym [] with ctsel := sym }) hm
    (acc := []) (s.readCt_writeCt_same sym []) (by simpa using hlen)
  have hsel : t.ctsel = sym := by rw [hframe]
  refine ⟨t, by rw [ctLoad, afterAll_cons, hnew, ht], ?_, hset, fun j hj => ?_⟩
  · rw [hsel]
    exact hframe.trans rfl
  · exact (hother j hj).trans (s.readCt_writeCt_other _ hj)

/-- The commands for one symbol. -/
theorem ctSet_afterAll_ctImageOf (earlier : List Symbol) {ct : CodeTable} {sym : Symbol}
    (hct : ∀ code, ct.code sym = some code → code.length ≤ 127) {s : State} (hm : s.mode = .idle) :
    ∃ t, afterAll (ctImageOf earlier ct sym) s = t ∧ t = { s with ct := t.ct, ctsel := t.ctsel } ∧
      CtSet s t sym (loadedEntry earlier ct sym (s.readCt sym)) := by
  unfold ctImageOf loadedEntry
  cases hcode : ct.code sym with
  | some code => exact ctSet_afterAll_ctLoad sym (hct code hcode) hm
  | none =>
    dsimp only
    split
    · exact ⟨s.clearCt sym, after_of_idle (i := .ctClr sym) hm rfl, rfl, ctSet_clearCt s sym⟩
    · exact ⟨s, rfl, rfl, rfl, fun _ _ => rfl⟩

/-- The commands for distinct symbols load each symbol's entry and touch no other. -/
theorem readCt_afterAll_ctImage (earlier : List Symbol) {ct : CodeTable}
    (hct : ∀ sym code, ct.code sym = some code → code.length ≤ 127) {syms : List Symbol} (hd : syms.Nodup)
    {s : State} (hm : s.mode = .idle) :
    ∃ t, afterAll (syms.flatMap (ctImageOf earlier ct)) s = t ∧ t = { s with ct := t.ct, ctsel := t.ctsel } ∧
      (∀ sym ∈ syms, t.readCt sym = loadedEntry earlier ct sym (s.readCt sym)) ∧
      ∀ sym, sym ∉ syms → t.readCt sym = s.readCt sym := by
  induction syms generalizing s with
  | nil => exact ⟨s, rfl, rfl, nofun, fun _ _ => rfl⟩
  | cons x rest ih =>
    obtain ⟨hx, hrest⟩ := List.nodup_cons.1 hd
    obtain ⟨u, hu, huframe, hset, hother⟩ := ctSet_afterAll_ctImageOf earlier (hct x) hm
    have hum : u.mode = .idle := by rw [huframe]; exact hm
    obtain ⟨t, ht, hframe, hloaded, hkept⟩ := ih hrest hum
    refine ⟨t, by rw [List.flatMap_cons, afterAll_append, hu, ht], ?_, fun sym hsym => ?_, fun sym hsym => ?_⟩
    · rw [hframe, huframe]
    · rcases List.mem_cons.1 hsym with rfl | hsym
      · exact (hkept sym hx).trans hset
      · rw [hloaded sym hsym, hother sym fun e => hx (e ▸ hsym)]
    · rw [List.mem_cons, not_or] at hsym
      obtain ⟨hne, hnot⟩ := hsym
      exact (hkept sym hnot).trans (hother sym hne)

/-- Settles O59: the image has the commands of every symbol, and `loadedEntry` is what they leave. -/
theorem codeImageLoadsTable : Obligations.CodeImageLoadsTable := by
  intro earlier ct s hct hm
  obtain ⟨t, ht, hframe, hloaded, -⟩ := readCt_afterAll_ctImage earlier hct alphabet_nodup hm
  replace hloaded (sym : Symbol) := hloaded sym (mem_alphabet sym)
  refine ⟨t, by rw [execAll_eq_afterAll, ctImage, ht], hframe, ?code, ?cleared, ?kept, fun hearlier sym => ?exact⟩
  case code => intro sym code h; rw [hloaded, loadedEntry, h]
  case cleared => intro sym h hin; rw [hloaded, loadedEntry, h]; exact if_pos hin
  case kept => intro sym h hout; rw [hloaded, loadedEntry, h]; exact if_neg hout
  case exact =>
    rw [hloaded, loadedEntry]
    cases ct.code sym with
    | some code => rfl
    | none =>
      dsimp only
      split
      case isTrue => rfl
      case isFalse hout => exact not_not.1 (mt (hearlier sym) hout)

end Sys2Proof.Machine
end
